-- ==== Sys2Proof/Word.lean ====
section
/-! DEFINITION. The bit-vector types of the block (spec 00_scope.md R8, R9; 30_encoding.md R70, R73)
and the four-byte register shape of ACC and CMD. -/

namespace Sys2Proof

abbrev Byte := BitVec 8

/-- The 32-bit view of ACC and CMD (R9, R51). -/
abbrev Word := BitVec 32

/-- CNT and the sampled elapsed time: CNT_W = 6 bits, unsigned (R8, R21). -/
abbrev Count := BitVec 6

/-- PI: PI_W = 8 bits, two's complement (R8, R22). -/
abbrev PulseIndex := BitVec 8

/-- The 2-bit action code of register ACT (R28). -/
abbrev ActCode := BitVec 2

/-- Format EV: bit 2 `rst`, bit 1 `edge`, bit 0 `tick` (R70). -/
abbrev EventWord := BitVec 3

/-- Format COND: bits `s`, `o`, `r`, `l`, bit 3 down to bit 0 (R73). -/
abbrev CondWord := BitVec 4

/-- Four bytes, `b0` the first received (R9, R24, R25: ACC[0..3] and CMD[0..3]). -/
structure FourBytes where
  b0 : Byte
  b1 : Byte
  b2 : Byte
  b3 : Byte
  deriving DecidableEq, Repr

/-- All four bytes zero. -/
def FourBytes.zero : FourBytes := ⟨0, 0, 0, 0⟩

end Sys2Proof
end

