-- ==== Sys2Proof/Config.lean ====
section
/-! DEFINITION. What one built instance fixes (spec 00_scope.md R6, R8; 10_state.md R31, R32), the
command table (30_encoding.md R78), and the free value of the model: the inputs the environment
presents once the listed stimulus has run out. -/

namespace Sys2Proof

/-- The order applied when a tick and an edge fall in one step (R8, R59). -/
inductive SimulOrder where
  | edgeFirst
  | tickFirst
  deriving DecidableEq, Repr

/-- The four action names at the block's boundary (R150). -/
inductive Action where
  | up
  | left
  | right
  | down
  deriving DecidableEq, Repr

/-- The profile parameters of one built instance, in ticks (R6), with SIMUL_ORDER (R8).
No operation changes them (R31, R32). -/
structure Profile where
  tBit       : Nat
  tStart     : Nat
  ceil       : Nat
  simulOrder : SimulOrder
  deriving DecidableEq, Repr

/-- One entry of the command table: bytes 1 to 3 of the frame and the action (R78). -/
structure CmdEntry where
  b1     : Byte
  b2     : Byte
  b3     : Byte
  action : Action
  deriving DecidableEq, Repr

/-- One step's input: at the event level the event word itself (R70, R90), at the pin level the
three input port values (R92, R170). -/
inductive Input where
  | event (ev : EventWord)
  | pins (rst tick irIn : Bool)
  deriving DecidableEq, Repr, Inhabited

/-- This hardware: T_BIT = 2, T_START = 50, CEIL = 50 (R6), SIMUL_ORDER = edge_first (R8, D5). -/
def Config.hw : Profile := { tBit := 2, tStart := 50, ceil := 50, simulOrder := .edgeFirst }

/-- The command table, fixed, four entries (R78). -/
def Config.cmdTable : List CmdEntry :=
  [ ⟨0xFF, 0x18, 0xE7, .up⟩,
    ⟨0xFF, 0x10, 0xEF, .left⟩,
    ⟨0xFF, 0x5A, 0xA5, .right⟩,
    ⟨0xFF, 0x4A, 0xB5, .down⟩ ]

/-- PI at the start of a frame: minus HEADER_EDGES (R8, R22). -/
def Config.startIndex : Int := -2

/-- PI after a completion (R126, R130). -/
def Config.restIndex : Int := 0

/-- FRAME_BITS, the number of data bits of a frame (R8). -/
def Config.frameBits : Int := 32

/-- CNT_W (R8). -/
def Config.cntW : Nat := 6

/-- FREE VALUE (log entry 2, DESIGN CHOICE, safe): the input the environment presents in step `n`
when State.inputs lists none. It has no body, so nothing is known of it: the environment may
present any input (R179 d), and the end of a stimulus does not say that no further edge arrives
(R224). -/
opaque Config.freeInput : Nat → Input

end Sys2Proof
end

