-- ==== Sys2Proof/Syntax.lean ====
section
/-! DEFINITION. The operations of the block: one constructor per row of spec/opcode_table.json, in
its order. No operation has operands; a constructor carries the bits its row's pattern ignores, so
that decoding loses no bit of a word. -/

namespace Sys2Proof

inductive Instr where
  /-- IDLE, event word 000 (R176). -/
  | idle
  /-- TICK, event word 001 (R100). -/
  | tick
  /-- EDGE, event word 010 (R120). -/
  | edge
  /-- EDGT, event word 011 (R131). -/
  | edgt
  /-- RESET, event word 1xx; the `edge` and `tick` bits are ignored (R175). -/
  | reset (edgeBit tickBit : Bool)
  /-- RESYNC, condition word 1xxx (R122, R73). -/
  | resync (o r l : Bool)
  /-- HEADER, condition word 0x00 (R123, R73). -/
  | header (o : Bool)
  /-- BIT0, condition word 001x; `l` says whether COMPLETE follows (R124, R73). -/
  | bit0 (l : Bool)
  /-- BIT1, condition word 011x; `l` says whether COMPLETE follows (R125, R73). -/
  | bit1 (l : Bool)
  /-- COMPLETE, condition word 0xx1, performed after the BIT0 or BIT1 of the same word (R126, R73). -/
  | complete (o r : Bool)
  /-- ACT_UP, command word xxFF18E7 (R151, R78); byte 0 is never inspected (R155). -/
  | actUp (byte0 : Byte)
  /-- ACT_LEFT, command word xxFF10EF. -/
  | actLeft (byte0 : Byte)
  /-- ACT_RIGHT, command word xxFF5AA5. -/
  | actRight (byte0 : Byte)
  /-- ACT_DOWN, command word xxFF4AB5. -/
  | actDown (byte0 : Byte)
  /-- NO_MATCH, every command word whose bytes 1 to 3 are in no table entry (R154, R79). -/
  | noMatch (word : Word)
  deriving DecidableEq, Repr

/-- A word together with the format it is read in. The three formats are not told apart by their
bits: EV words come from the ports, COND words from the comparator and PI, CMD words from CMD. -/
inductive Code where
  | ev (w : EventWord)
  | cond (w : CondWord)
  | cmd (w : Word)
  deriving DecidableEq, Repr

end Sys2Proof
end

