-- ==== Sys2Proof/WellFormed.lean ====
section
/-! DEFINITION. Which instructions are words of the table, and which profiles may be built
(spec 00_scope.md R7, decision D8). -/

namespace Sys2Proof

/-- Bytes 1 to 3 of `w` are the key of the table entry `r` (R78). -/
def CmdEntry.hasKeyOf (r : CmdEntry) (w : Word) : Bool :=
  (r.b1 ++ r.b2 ++ r.b3 : BitVec 24) == w.truncate 24

/-- NO_MATCH is the default row: it applies only to a key that is in no entry (R79, R154). Every
other constructor's carried bits are free. -/
def Instr.wf : Instr → Bool
  | .noMatch w => Config.cmdTable.all fun r => !r.hasKeyOf w
  | .idle | .tick | .edge | .edgt | .reset _ _ => true
  | .resync _ _ _ | .header _ | .bit0 _ | .bit1 _ | .complete _ _ => true
  | .actUp _ | .actLeft _ | .actRight _ | .actDown _ => true

/-- `0 < T_BIT < T_START ≤ CEIL ≤ 2^CNT_W − 1` (R7). -/
def Profile.wf (c : Profile) : Bool :=
  0 < c.tBit && c.tBit < c.tStart && c.tStart ≤ c.ceil && c.ceil ≤ 2 ^ Config.cntW - 1

/-- "A model refuses a configuration that violates the constraint" (R7): an illegal profile is not
built. -/
def Profile.build (tBit tStart ceil : Nat) (order : SimulOrder) : Option Profile :=
  if Profile.wf ⟨tBit, tStart, ceil, order⟩ then some ⟨tBit, tStart, ceil, order⟩ else none

/-- The keys of the command table are pairwise different (R78). -/
def Config.keysDistinct : Bool :=
  (Config.cmdTable.map fun r => (r.b1, r.b2, r.b3)).Nodup

end Sys2Proof
end

