-- ==== Sys2Proof/Decode.lean ====
section
/-! DEFINITION. The three decoders of spec 30_encoding.md (event word R71, condition word R73,
command word R78 and 42_command_lookup.md R151), the encoder, and the table's numbering of words. -/

namespace Sys2Proof

/-- Event word to operation: all eight values are defined (R71, R72). -/
def decodeEv (w : EventWord) : Instr :=
  if w.getLsbD 2 then .reset (w.getLsbD 1) (w.getLsbD 0)
  else if w.getLsbD 1 then (if w.getLsbD 0 then .edgt else .edge)
  else (if w.getLsbD 0 then .tick else .idle)

/-- Condition word to the sub-operations it selects, in the order they are performed (R73): RESYNC
alone; else HEADER, BIT0, BIT1 or (for the unreachable p ≥ 32) nothing, and then COMPLETE if `l`. -/
def decodeCond (w : CondWord) : List Instr :=
  let s := w.getLsbD 3
  let o := w.getLsbD 2
  let r := w.getLsbD 1
  let l := w.getLsbD 0
  if s then [.resync o r l]
  else
    (if r then [if o then .bit1 l else .bit0 l]
     else if l then [] else [.header o])
    ++ (if l then [.complete o r] else [])

/-- The exact-match lookup of bytes 1 to 3 in the command table (R151, R78, R79). -/
def lookupKey (b1 b2 b3 : Byte) : Option Action :=
  (Config.cmdTable.find? fun r => r.b1 == b1 && r.b2 == b2 && r.b3 == b3).map CmdEntry.action

/-- Command word to the lookup row it selects (R78, R151, R154). -/
def decodeCmd (w : Word) : Instr :=
  match lookupKey (w.extractLsb' 16 8) (w.extractLsb' 8 8) (w.extractLsb' 0 8) with
  | some .up    => .actUp (w.extractLsb' 24 8)
  | some .left  => .actLeft (w.extractLsb' 24 8)
  | some .right => .actRight (w.extractLsb' 24 8)
  | some .down  => .actDown (w.extractLsb' 24 8)
  | none        => .noMatch w

/-- What a word selects in its format, in the order of execution. -/
def decode : Code → List Instr
  | .ev w   => [decodeEv w]
  | .cond w => decodeCond w
  | .cmd w  => [decodeCmd w]

/-- Why bits are no word of the table. -/
inductive DecodeError where
  /-- A bit above the 3 bits of an event word, or above the 4 bits of a condition word, is 1. -/
  | strayBits
  /-- The length is none of the table's lengths (R82: nothing is variable-length). -/
  | noSuchLength
  deriving DecidableEq, Repr

/-- The word that `nbits` bits of value `w` are, numbered as the opcode table numbers them. Lengths
3, 4 and 32 are the formats themselves. In ONE BYTE the table's two short formats overlap; a byte
is read as the block's input, the event word, and only a byte that cannot be one (bit 3 set) as a
condition word (log entry 5, DESIGN CHOICE). -/
def codeOf (nbits w : Nat) : Except DecodeError Code :=
  if nbits = 3 then
    if w < 8 then .ok (.ev (BitVec.ofNat 3 w)) else .error .strayBits
  else if nbits = 4 then
    if w < 16 then .ok (.cond (BitVec.ofNat 4 w)) else .error .strayBits
  else if nbits = 8 then
    if w < 8 then .ok (.ev (BitVec.ofNat 3 w))
    else if w < 16 then .ok (.cond (BitVec.ofNat 4 w))
    else .error .strayBits
  else if nbits = 32 then
    if w < 2 ^ 32 then .ok (.cmd (BitVec.ofNat 32 w)) else .error .strayBits
  else .error .noSuchLength

/-- The decoder on bytes in the order of reception: one byte holds an event word, four bytes a
frame, byte 0 first (R51). -/
def decodeBytes : List Byte → Except DecodeError Instr
  | [b] => match codeOf 8 b.toNat with
    | .ok c => .ok ((decode c).headD .idle)
    | .error e => .error e
  | [b0, b1, b2, b3] => .ok (decodeCmd (b0 ++ b1 ++ b2 ++ b3))
  | _ => .error .noSuchLength

/-- The host's question: the (first) instruction selected by a word of the opcode table. -/
def decodeTableWord (nbits w : Nat) : Option Instr :=
  match codeOf nbits w with
  | .ok c => (decode c).head?
  | .error _ => none

/-- The word of an instruction, from the same tables (R71, R73, R78). -/
def encode : Instr → Code
  | .idle => .ev 0b000
  | .tick => .ev 0b001
  | .edge => .ev 0b010
  | .edgt => .ev 0b011
  | .reset e t => .ev (BitVec.ofBool true ++ BitVec.ofBool e ++ BitVec.ofBool t)
  | .resync o r l => .cond (BitVec.ofBool true ++ BitVec.ofBool o ++ BitVec.ofBool r ++ BitVec.ofBool l)
  | .header o => .cond (BitVec.ofBool false ++ BitVec.ofBool o ++ 0b00#2)
  | .bit0 l => .cond (0b001#3 ++ BitVec.ofBool l)
  | .bit1 l => .cond (0b011#3 ++ BitVec.ofBool l)
  | .complete o r => .cond (BitVec.ofBool false ++ BitVec.ofBool o ++ BitVec.ofBool r ++ BitVec.ofBool true)
  | .actUp b => .cmd (b ++ 0xFF18E7#24)
  | .actLeft b => .cmd (b ++ 0xFF10EF#24)
  | .actRight b => .cmd (b ++ 0xFF5AA5#24)
  | .actDown b => .cmd (b ++ 0xFF4AB5#24)
  | .noMatch w => .cmd w

end Sys2Proof
end

