-- ==== Sys2Proof/Machine/State.lean ====
section
/-! DEFINITION. The state of the block (spec 10_state.md R20), the model's own fields beside it, the
outcomes of a step, and the state after reset (R35). -/

namespace Sys2Proof.Machine

/-- An observable output event of a step (00_scope.md R10). -/
inductive Event where
  /-- A completed frame with these four bytes is presented at the output (R152). -/
  | dispatch (b0 b1 b2 b3 : Byte)
  /-- An action is requested (R153). -/
  | action (a : Action)
  deriving DecidableEq, Repr

/-- The registers of R20, then the model's own fields: the level of the port `ir_in` in the current
step, the inputs still to be presented, the number of the current step (R12) and the events emitted
so far, oldest first, each with the number of the step that emitted it (R224). -/
structure State where
  cnt      : Count
  pi       : PulseIndex
  acc      : FourBytes
  cmd      : FourBytes
  cmdValid : Bool
  actValid : Bool
  act      : ActCode
  irPrev   : Bool
  irIn     : Bool
  inputs   : List Input
  stepNo   : Nat
  events   : List (Nat × Event)
  deriving DecidableEq, Repr

/-- The complete list of exception causes is empty (R190): no step faults. -/
inductive Fault where
  deriving DecidableEq, Repr

inductive Refusal where
  /-- Raised by exec's arm of an operation that has no meaning yet, with the table's mnemonic; safe.
  No arm raises it: the step function never refuses (R174). -/
  | notModelled (mnemonic : String)
  deriving DecidableEq, Repr

/-- The outcome of an operation. -/
abbrev Result := Host.Outcome State Fault Refusal

/-- The registers at the values of R35; no input listed, step 0, no event emitted, the line at its
idle level (log entries 1 to 4). -/
def State.reset : State where
  cnt      := 0
  pi       := 0xFE#8
  acc      := FourBytes.zero
  cmd      := FourBytes.zero
  cmdValid := false
  actValid := false
  act      := 0
  irPrev   := true
  irIn     := true
  inputs   := []
  stepNo   := 0
  events   := []

end Sys2Proof.Machine
end

