-- ==== Sys2Proof/Machine/Operands.lean ====
section
/-! DEFINITION. Reads and writes of the registers: one setter per field, PI as a signed value
(spec 00_scope.md R11), and the bit addressing of ACC (20_memory.md R51, R52). -/

namespace Sys2Proof

/-- `byteIndex = p >> 3` (R52). -/
def byteIndex (p : Nat) : Nat := p >>> 3

/-- `bitOffset = 7 − (p & 7)` (R52). -/
def bitOffset (p : Nat) : Nat := 7 - (p &&& 7)

/-- Byte `i` of four; there is no byte beyond 3. -/
def FourBytes.get (f : FourBytes) : Nat → Byte
  | 0 => f.b0
  | 1 => f.b1
  | 2 => f.b2
  | 3 => f.b3
  | _ => 0

/-- Write byte `i` of four; outside 0..3 nothing is accessed (R52). -/
def FourBytes.set (f : FourBytes) (i : Nat) (v : Byte) : FourBytes :=
  match i with
  | 0 => { f with b0 := v }
  | 1 => { f with b1 := v }
  | 2 => { f with b2 := v }
  | 3 => { f with b3 := v }
  | _ => f

/-- `ACC[p >> 3] <- ACC[p >> 3] | (1 << (7 − (p & 7)))` (R121, R125). -/
def FourBytes.setBit (f : FourBytes) (p : Nat) : FourBytes :=
  f.set (byteIndex p) (f.get (byteIndex p) ||| 1#8 <<< bitOffset p)

/-- The bit at data position `p` (R9, R52). -/
def FourBytes.bitAt (f : FourBytes) (p : Nat) : Bool :=
  (f.get (byteIndex p)).getLsbD (bitOffset p)

/-- The 32-bit view, byte 0 in bits 31:24 (R9, R51). -/
def FourBytes.toWord (f : FourBytes) : Word := f.b0 ++ f.b1 ++ f.b2 ++ f.b3

/-- The four bytes of a 32-bit word (R9, R51). -/
def FourBytes.ofWord (w : Word) : FourBytes :=
  ⟨w.extractLsb' 24 8, w.extractLsb' 16 8, w.extractLsb' 8 8, w.extractLsb' 0 8⟩

namespace Machine.State

def setCnt (s : State) (v : Count) : State := { s with cnt := v }
def setPi (s : State) (v : PulseIndex) : State := { s with pi := v }
def setAcc (s : State) (v : FourBytes) : State := { s with acc := v }
def setCmd (s : State) (v : FourBytes) : State := { s with cmd := v }
def setCmdValid (s : State) (v : Bool) : State := { s with cmdValid := v }
def setActValid (s : State) (v : Bool) : State := { s with actValid := v }
def setAct (s : State) (v : ActCode) : State := { s with act := v }
def setIrPrev (s : State) (v : Bool) : State := { s with irPrev := v }
def setIrIn (s : State) (v : Bool) : State := { s with irIn := v }
def setInputs (s : State) (v : List Input) : State := { s with inputs := v }
def setStepNo (s : State) (v : Nat) : State := { s with stepNo := v }
def setEvents (s : State) (v : List (Nat × Event)) : State := { s with events := v }

/-- PI read as a signed value (R11, R22). -/
def piVal (s : State) : Int := s.pi.toInt

/-- `PI <- v`, v a mathematical integer stored in 8 bits (R10, R22). -/
def setPiVal (s : State) (v : Int) : State := s.setPi (BitVec.ofInt 8 v)

/-- The output port `cmd` (R51, R170). -/
def cmdPort (s : State) : Word := s.cmd.toWord

end Machine.State

end Sys2Proof
end

