-- ==== Sys2Proof/Machine/Flags.lean ====
section
/-! DEFINITION. The block has no condition codes (spec 10_state.md R30). What stands in their place:
the threshold comparator (41_frame_decoder.md R132), the condition word made of it and of PI
(30_encoding.md R73), the two strobes (10_state.md R27, R28) and the action code (R78, R28). -/

namespace Sys2Proof

/-- `is_start := (e ≥ T_START)` (R132). -/
def isStart (c : Profile) (e : Nat) : Bool := c.tStart ≤ e

/-- `is_one := (e ≥ T_BIT)` (R132). -/
def isOne (c : Profile) (e : Nat) : Bool := c.tBit ≤ e

/-- `r = (0 ≤ p and p < 32)`: PI is at a data position (R73, R121). -/
def inData (p : Int) : Bool := 0 ≤ p && p < Config.frameBits

/-- `l = (p + 1 ≥ 32)`: the incremented index reaches the frame length (R73, R126). -/
def atEnd (p : Int) : Bool := Config.frameBits ≤ p + 1

/-- The condition word `{s, o, r, l}` of a sample `e` and the index `p` (R73). -/
def condWord (c : Profile) (e : Nat) (p : Int) : CondWord :=
  BitVec.ofBool (isStart c e) ++ BitVec.ofBool (isOne c e)
    ++ BitVec.ofBool (inData p) ++ BitVec.ofBool (atEnd p)

/-- The 2-bit code of an action, numbered in the table's order (R78). -/
def Action.code : Action → ActCode
  | .up    => 0
  | .left  => 1
  | .right => 2
  | .down  => 3

namespace Machine

/-- Both strobes default to 0 in every step (R27, R28). -/
def clearStrobes (s : State) : State := (s.setCmdValid false).setActValid false

end Machine

end Sys2Proof
end

