-- ==== Sys2Proof/Machine/Ops.lean ====
section
/-! DEFINITION. The shared operations over the registers, each with the profile as an argument.
NO EXCEPTION IS DEFINED HERE because none exists: no state is saved, no mode changes, no vector is
fetched, and there is no return operation (spec 60_exceptions.md R190, R195, R196). There is no
memory to read or write (20_memory.md R50). -/

namespace Sys2Proof.Machine

/-- `emit`: the step's output event, with the number of the step that emits it (R10, R224). -/
def emit (ev : Event) (s : State) : State := s.setEvents (s.events ++ [(s.stepNo, ev)])

/-- `IR_PREV <- ir_in` (R172). -/
def latchLine (s : State) : State := s.setIrPrev s.irIn

/-- The count after one tick: `if CNT < CEIL then CNT + 1`, else CNT (R100). -/
def tickedCount (c : Profile) (cnt : Count) : Count :=
  if cnt.toNat < c.ceil then BitVec.ofNat 6 (cnt.toNat + 1) else cnt

/-- `PI <- −2 ; ACC <- 0` (R121, R122). -/
def startFrame (s : State) : State := (s.setPiVal Config.startIndex).setAcc FourBytes.zero

/-- `PI <- p + 1` (R121). -/
def advanceIndex (s : State) : State := s.setPiVal (s.piVal + 1)

/-- Set the bit of ACC at data position `p` (R125); for p outside 0..31 no bit is accessed (R52). -/
def depositBit (p : Int) (s : State) : State :=
  if inData p then s.setAcc (s.acc.setBit p.toNat) else s

/-- A match: `ACT <- code ; ACT_VALID <- 1 ; emit Action(a)` (R151). -/
def requestAction (a : Action) (s : State) : State :=
  emit (.action a) ((s.setAct a.code).setActValid true)

/-- No match: no Action, ACT_VALID = 0, ACT keeps its value (R154). -/
def dropFrame (s : State) : State := s.setActValid false

/-- `lookup(CMD[1], CMD[2], CMD[3])` (R151). -/
def lookupCmd (s : State) : State :=
  match lookupKey s.cmd.b1 s.cmd.b2 s.cmd.b3 with
  | some a => requestAction a s
  | none => dropFrame s

/-- `complete()`: snapshot, clear, index to 0, CMD_VALID, Dispatch, lookup (R126). -/
def completeFrame (s : State) : State :=
  let s1 := (((s.setCmd s.acc).setAcc FourBytes.zero).setPiVal Config.restIndex).setCmdValid true
  lookupCmd (emit (.dispatch s1.cmd.b0 s1.cmd.b1 s1.cmd.b2 s1.cmd.b3) s1)

/-- `decode(e)`, the whole state machine, as the pseudocode of R121 writes it: start marker first;
else one unconditional increment, the classification on the value before it, and the completion
test on the value after it (conflict C1). -/
def decodeGap (c : Profile) (e : Nat) (s : State) : State :=
  if isStart c e then startFrame s
  else
    let p := s.piVal
    let s1 := advanceIndex s
    let s2 := if inData p && isOne c e then depositBit p s1 else s1
    if atEnd p then completeFrame s2 else s2

/-- TICK (R100). -/
def tickOp (c : Profile) (s : State) : State :=
  latchLine (clearStrobes (s.setCnt (tickedCount c s.cnt)))

/-- EDGE (R120), with the sample-and-reset of R101. -/
def edgeOp (c : Profile) (s : State) : State :=
  latchLine (decodeGap c s.cnt.toNat ((clearStrobes s).setCnt 0))

/-- EDGT (R131): both orders of R59, chosen by SIMUL_ORDER. -/
def edgtOp (c : Profile) (s : State) : State :=
  match c.simulOrder with
  | .edgeFirst =>
    latchLine ((decodeGap c s.cnt.toNat (clearStrobes s)).setCnt 1)
  | .tickFirst =>
    latchLine ((decodeGap c (tickedCount c s.cnt).toNat (clearStrobes s)).setCnt 0)

/-- IDLE (R176). -/
def idleOp (s : State) : State := latchLine (clearStrobes s)

/-- RESET: every register to its value of R35 (R175). The model's own fields are no registers of
the block and keep their values. -/
def resetOp (s : State) : State :=
  { s with
    cnt      := State.reset.cnt
    pi       := State.reset.pi
    acc      := State.reset.acc
    cmd      := State.reset.cmd
    cmdValid := State.reset.cmdValid
    actValid := State.reset.actValid
    act      := State.reset.act
    irPrev   := State.reset.irPrev }

end Sys2Proof.Machine
end

