-- ==== Sys2Proof/Machine/CommandLookup.lean ====
section
/-! DEFINITION. The five results of the command lookup (spec 42_command_lookup.md R151, R154), each
applied to the state in which COMPLETE has made the snapshot and emitted the Dispatch event. Byte 0
is no operand (R151, R155). -/

namespace Sys2Proof.Machine

/-- ACT_UP: `a := up ; code := 0` (R151). -/
def execActUp (s : State) : Result := .next (requestAction .up s)

/-- ACT_LEFT: `a := left ; code := 1` (R151). -/
def execActLeft (s : State) : Result := .next (requestAction .left s)

/-- ACT_RIGHT: `a := right ; code := 2` (R151). -/
def execActRight (s : State) : Result := .next (requestAction .right s)

/-- ACT_DOWN: `a := down ; code := 3` (R151). -/
def execActDown (s : State) : Result := .next (requestAction .down s)

/-- NO_MATCH: no Action, ACT_VALID = 0, ACT keeps its value (R154). -/
def execNoMatch (s : State) : Result := .next (dropFrame s)

end Sys2Proof.Machine
end

