-- ==== Sys2Proof/Machine/FrameDecoder.lean ====
section
/-! DEFINITION. The operations EDGE and EDGT and the sub-operations RESYNC, HEADER, BIT0, BIT1 and
COMPLETE (spec 41_frame_decoder.md). EDGE and EDGT follow the pseudocode of decode(e) (R121); a
sub-operation of its own is the effect its rule gives it, applied to the state after the
sample-and-reset. That an EDGE is the sequence of sub-operations its condition word selects (R73)
is a theorem, not the definition. A sub-operation neither reads nor writes CNT and IR_PREV (R107,
R120). The rule of RESYNC and HEADER says "strobes 0", and every step that does not complete a
frame writes 0 to both (R27, R28), so the four that do not complete clear them (log entry 7). -/

namespace Sys2Proof.Machine

/-- EDGE: sample-and-reset CNT, then decode the sampled gap (R120). -/
def execEdge (s : State) : Result := .next (edgeOp Config.hw s)

/-- EDGT: an edge and a tick in one step, ordered by SIMUL_ORDER (R131). -/
def execEdgt (s : State) : Result := .next (edgtOp Config.hw s)

/-- RESYNC: `PI <- −2 ; ACC <- 0`; strobes 0 (R122). -/
def execResync (s : State) : Result := .next (startFrame (clearStrobes s))

/-- HEADER: `PI <- p + 1`; strobes 0 (R123). -/
def execHeader (s : State) : Result := .next (advanceIndex (clearStrobes s))

/-- BIT0: `PI <- p + 1`, ACC is not written (R124). -/
def execBit0 (s : State) : Result := .next (advanceIndex (clearStrobes s))

/-- BIT1: the bit of ACC at position p is set, then `PI <- p + 1` (R125). -/
def execBit1 (s : State) : Result :=
  .next (advanceIndex (depositBit s.piVal (clearStrobes s)))

/-- COMPLETE: snapshot, clear, index to 0, CMD_VALID, Dispatch, lookup (R126). -/
def execComplete (s : State) : Result := .next (completeFrame (clearStrobes s))

end Sys2Proof.Machine
end

