-- ==== Sys2Proof/Machine/System.lean ====
section
/-! DEFINITION. The operations IDLE and RESET (spec 43_step_and_pins.md R175, R176). -/

namespace Sys2Proof.Machine

/-- IDLE: only the strobes are cleared and the line is sampled (R176). -/
def execIdle (s : State) : Result := .next (idleOp s)

/-- RESET: the `edge` and `tick` bits are ignored and not remembered (R175, R194). -/
def execReset (s : State) : Result := .next (resetOp s)

end Sys2Proof.Machine
end

