-- ==== Sys2Proof/Machine/TickCounter.lean ====
section
/-! DEFINITION. The operation TICK (spec 40_tick_counter.md R100). -/

namespace Sys2Proof.Machine

/-- TICK: CNT counts one tick, saturating at CEIL (R100). -/
def execTick (s : State) : Result := .next (tickOp Config.hw s)

end Sys2Proof.Machine
end

