-- ==== Sys2Proof/Machine/Dispatch.lean ====
section
/-! DEFINITION. The one dispatch: one arm per constructor of Instr. -/

namespace Sys2Proof.Machine

def exec (i : Instr) (s : State) : Host.Outcome State Fault Refusal :=
  match i with
  | .idle => Sys2Proof.Machine.execIdle s
  | .tick => Sys2Proof.Machine.execTick s
  | .edge => Sys2Proof.Machine.execEdge s
  | .edgt => Sys2Proof.Machine.execEdgt s
  | .reset _ _ => Sys2Proof.Machine.execReset s
  | .resync _ _ _ => Sys2Proof.Machine.execResync s
  | .header _ => Sys2Proof.Machine.execHeader s
  | .bit0 _ => Sys2Proof.Machine.execBit0 s
  | .bit1 _ => Sys2Proof.Machine.execBit1 s
  | .complete _ _ => Sys2Proof.Machine.execComplete s
  | .actUp _ => Sys2Proof.Machine.execActUp s
  | .actLeft _ => Sys2Proof.Machine.execActLeft s
  | .actRight _ => Sys2Proof.Machine.execActRight s
  | .actDown _ => Sys2Proof.Machine.execActDown s
  | .noMatch _ => Sys2Proof.Machine.execNoMatch s

end Sys2Proof.Machine
end

