-- ==== Sys2Proof/Machine/Pins.lean ====
section
/-! DEFINITION. How one step gets its input: the next input of the stream, the falling-edge detector
(spec 43_step_and_pins.md R172), the formation of the event word (R173), and the end of a step. -/

namespace Sys2Proof.Machine

/-- The level of `ir_in` in a step with this input. At the event level the line is driven as R92
translates a program: 0 in a step whose operation is EDGE or EDGT, else 1 (log entry 4). -/
def lineLevel : Input → Bool
  | .event ev => !(ev.getLsbD 1 && !ev.getLsbD 2)
  | .pins _ _ irIn => irIn

/-- `edge := (IR_PREV = 1) and (ir_in = 0)` (R172). -/
def fallingEdge (irPrev irIn : Bool) : Bool := irPrev && !irIn

/-- `ev = {rst, edge, tick}`; at the event level `ev` is the input itself (R173). -/
def eventWordOf (irPrev : Bool) : Input → EventWord
  | .event ev => ev
  | .pins rst tick irIn =>
    BitVec.ofBool rst ++ BitVec.ofBool (fallingEdge irPrev irIn) ++ BitVec.ofBool tick

namespace State

/-- The input of this step: the first of the listed ones, else the free value of the step's number
(log entry 2). -/
def nextInput (s : State) : Input :=
  match s.inputs with
  | x :: _ => x
  | [] => Config.freeInput s.stepNo

/-- The event word of this step (R173). -/
def eventWord (s : State) : EventWord := eventWordOf s.irPrev s.nextInput

/-- The step's input is taken: `ir_in` has its level, and the stream moves on. -/
def present (s : State) : State :=
  (s.setIrIn (lineLevel s.nextInput)).setInputs s.inputs.tail

/-- Steps are numbered 0, 1, 2, ... (R12). -/
def nextStep (s : State) : State := s.setStepNo (s.stepNo + 1)

end State

/-- The end of a step: a next state is numbered on. -/
def endStep : Result → Result
  | .next s => .next s.nextStep
  | .fault r => .fault r
  | .refused r => .refused r

end Sys2Proof.Machine
end

