-- ==== Sys2Proof/Machine/Load.lean ====
section
/-! DEFINITION. Placing a word of the opcode table so that the very next step runs it (log entry 6).
An event word is placed as the next input. A condition word or a command word is no input of the
block (spec 30_encoding.md R73: "not a port and not state"): the registers it is computed from are
set, and the next input is EDGE, so that the next step performs exactly what the word selects. -/

namespace Sys2Proof.Machine.State

/-- Present `ev` next. -/
def placeEvent (s : State) (ev : EventWord) : State := s.setInputs (.event ev :: s.inputs)

/-- A sample with these comparator results: T_START, T_BIT or 0 (R132). -/
def sampleFor (start one : Bool) : Count :=
  if start then BitVec.ofNat 6 Config.hw.tStart
  else if one then BitVec.ofNat 6 Config.hw.tBit else 0

/-- An index with these position bits: 31, 0, 32 or −2 (R73; 32 is the unreachable case of R127). -/
def indexFor (r l : Bool) : PulseIndex :=
  if r then (if l then 31#8 else 0#8) else (if l then 32#8 else 0xFE#8)

/-- The next EDGE computes the condition word `w` (with `s` set, `o` is 1 as well). -/
def placeCond (s : State) (w : CondWord) : State :=
  ((s.setCnt (sampleFor (w.getLsbD 3) (w.getLsbD 2))).setPi
    (indexFor (w.getLsbD 1) (w.getLsbD 0))).placeEvent 0b010

/-- The next EDGE is the last data edge of a frame that completes with the command word `w`: bits
31..1 are collected, and the gap is the one of bit 0. -/
def placeCmd (s : State) (w : Word) : State :=
  (((s.setAcc (FourBytes.ofWord (w &&& 0xFFFFFFFE#32))).setPi 31#8).setCnt
    (sampleFor false (w.getLsbD 0))).placeEvent 0b010

/-- Bits that are no word of the table place nothing. -/
def placeWord (s : State) (nbits w : Nat) : State :=
  match codeOf nbits w with
  | .ok (.ev x) => s.placeEvent x
  | .ok (.cond x) => s.placeCond x
  | .ok (.cmd x) => s.placeCmd x
  | .error _ => s

end Sys2Proof.Machine.State
end

