-- ==== Sys2Proof/Machine/Run.lean ====
section
/-! DEFINITION. Sequences of operations (spec 20_memory.md R57: a total order of steps). -/

namespace Sys2Proof.Machine

/-- The operations of a list, one after the other, stopping at a fault or a refusal. -/
def execSeq : List Instr → State → Result
  | [], s => .next s
  | i :: is, s =>
    match exec i s with
    | .next t => execSeq is t
    | .fault r => .fault r
    | .refused r => .refused r

/-- The next state of an outcome, if it has one. -/
def next? : Result → Option State
  | .next s => some s
  | .fault _ => none
  | .refused _ => none

/-- One edge of a frame: the ticks presented since the edge before it, and whether a further tick
falls in the step of the edge itself (R104). -/
structure Gap where
  ticks  : Nat
  atEdge : Bool
  deriving DecidableEq, Repr

/-- The operations of a gap: its ticks, then EDGE (R91: `GAP n`) or, with a tick in the same step,
EDGT. -/
def Gap.ops (g : Gap) : List Instr :=
  List.replicate g.ticks .tick ++ [if g.atEdge then .edgt else .edge]

/-- The count a gap leaves behind: under edge_first the tick of an EDGT belongs to the next gap
(R131). -/
def Gap.left (g : Gap) : Nat := if g.atEdge then 1 else 0

/-- The samples of a row of gaps below CEIL, from the count `c`: the ticks of a gap and what the edge
before it left (R104). -/
def gapSamples : Nat → List Gap → List Nat
  | _, [] => []
  | c, g :: gs => (c + g.ticks) :: gapSamples g.left gs

/-- The count after a row of gaps, from the count `c`. -/
def countAfter : Nat → List Gap → Nat
  | c, [] => c
  | _, g :: gs => countAfter g.left gs

end Sys2Proof.Machine
end

