-- ==== Sys2Proof/Safety.lean ====
section
/-! DEFINITION. What a good state and a good run are, in the terms the statements use: the
invariants of spec 10_state.md (R37, R23, R26, R28), the account of ticks (20_memory.md R60) and
the event operations of a run (30_encoding.md R71). -/

namespace Sys2Proof.Machine

/-- R37: `0 ≤ CNT ≤ CEIL`. -/
abbrev State.CountInRange (c : Profile) (s : State) : Prop := s.cnt.toNat ≤ c.ceil

/-- R23: `−2 ≤ PI ≤ 31`. -/
abbrev State.IndexInRange (s : State) : Prop := -2 ≤ s.piVal ∧ s.piVal ≤ 31

/-- R26: every bit of ACC at a data position ≥ PI is 0 (so ACC is all zero while PI < 0). -/
abbrev State.UncollectedZero (s : State) : Prop :=
  ∀ p : Fin 32, s.piVal ≤ (p.val : Int) → s.acc.bitAt p.val = false

/-- R28: ACT_VALID = 1 implies CMD_VALID = 1; R126: CMD_VALID = 1 leaves PI at 0. -/
abbrev State.StrobesAgree (s : State) : Prop :=
  (s.actValid = true → s.cmdValid = true) ∧ (s.cmdValid = true → s.piVal = 0)

/-- The invariants of the registers at rest. -/
abbrev State.Inv (c : Profile) (s : State) : Prop :=
  s.CountInRange c ∧ s.IndexInRange ∧ s.UncollectedZero ∧ s.StrobesAgree

/-- The five operations of the event word (R71). -/
def isEvent : Instr → Bool
  | .idle | .tick | .edge | .edgt | .reset _ _ => true
  | .resync _ _ _ | .header _ | .bit0 _ | .bit1 _ | .complete _ _ => false
  | .actUp _ | .actLeft _ | .actRight _ | .actDown _ | .noMatch _ => false

/-- An operation of the event word other than RESET: what may stand between two resets (R60). -/
def isRunning : Instr → Bool
  | .idle | .tick | .edge | .edgt => true
  | .reset _ _ => false
  | .resync _ _ _ | .header _ | .bit0 _ | .bit1 _ | .complete _ _ => false
  | .actUp _ | .actLeft _ | .actRight _ | .actDown _ | .noMatch _ => false

/-- An operation that reports no edge and no reset: IDLE or TICK. -/
def isQuiet (i : Instr) : Bool := i = .idle || i = .tick

/-- Tick events of a list of operations: TICK and EDGT (R60). -/
def ticksIn (is : List Instr) : Nat := is.countP fun i => i = .tick || i = .edgt

/-- The sum of the samples the edges of a run take, under edge_first the value of CNT at the start
of the step (R59, R60). -/
def samplesOf : List Instr → State → Nat
  | [], _ => 0
  | i :: is, s =>
    (if i = .edge ∨ i = .edgt then s.cnt.toNat else 0)
      + match exec i s with
        | .next t => samplesOf is t
        | .fault _ => 0
        | .refused _ => 0

/-- No tick of the run is lost to saturation: every TICK happens below CEIL (R60). -/
def neverSaturates : List Instr → State → Prop
  | [], _ => True
  | i :: is, s =>
    (i = .tick → s.cnt.toNat < Config.hw.ceil) ∧
      match exec i s with
      | .next t => neverSaturates is t
      | .fault _ => True
      | .refused _ => True

end Sys2Proof.Machine
end

