-- ==== Sys2Proof/Certificates/Slice0/Obligations.lean ====
section
/-! DEFINITION. The statements for the provers. States are written out as record updates, so that a
statement of a result is the statement of the frame and of completion as well: every field that is
not named keeps its value. `s.pi.toInt` is PI as a signed value, `s.cnt.toNat` CNT as an unsigned
one (R11). -/

open Sys2Proof Sys2Proof.Machine

/-! ### RESET, IDLE, TICK -/

/-- R175: RESET writes every register with its value of R35, whatever the `edge` and `tick` bits of
the word are, and no event is emitted. -/
def Obligations.ResetWritesEveryRegister : Prop :=
  ∀ (e t : Bool) (s : State), exec (.reset e t) s = .next
    { s with
      cnt := 0, pi := BitVec.ofInt 8 (-2), acc := ⟨0, 0, 0, 0⟩, cmd := ⟨0, 0, 0, 0⟩,
      cmdValid := false, actValid := false, act := 0, irPrev := true }

/-- R35: the registers of State.reset. The four other fields are the model's own (log entries 1 to
4), so this is a statement about the registers only. -/
def Obligations.ResetStateHasResetValues : Prop :=
  State.reset.cnt.toNat = 0 ∧ State.reset.pi.toInt = -2 ∧ State.reset.acc.toWord = 0 ∧
    State.reset.cmd.toWord = 0 ∧ State.reset.cmdValid = false ∧ State.reset.actValid = false ∧
    State.reset.act = 0 ∧ State.reset.irPrev = true

/-- R176: IDLE clears the strobes and samples the line; every other register keeps its value. -/
def Obligations.IdleClearsOnlyStrobes : Prop :=
  ∀ s : State, exec .idle s = .next
    { s with cmdValid := false, actValid := false, irPrev := s.irIn }

/-- R100: TICK increments CNT below the ceiling 50, keeps it otherwise, clears the strobes, samples
the line, and writes nothing else. -/
def Obligations.TickCountsBelowCeiling : Prop :=
  ∀ s : State, ∃ t : State,
    exec .tick s = .next t ∧
    t = { s with cnt := t.cnt, cmdValid := false, actValid := false, irPrev := s.irIn } ∧
    (s.cnt.toNat < 50 → t.cnt.toNat = s.cnt.toNat + 1) ∧
    (50 ≤ s.cnt.toNat → t.cnt = s.cnt)

/-! ### EDGE, one statement per sub-operation -/

/-- R122 in an EDGE: a sample of 50 or more resynchronises at any PI; CMD and ACT keep their values
and nothing is emitted. R101: CNT is read and cleared. -/
def Obligations.EdgeWithLongGapResyncs : Prop :=
  ∀ s : State, 50 ≤ s.cnt.toNat → exec .edge s = .next
    { s with
      cnt := 0, pi := BitVec.ofInt 8 (-2), acc := ⟨0, 0, 0, 0⟩,
      cmdValid := false, actValid := false, irPrev := s.irIn }

/-- R123 in an EDGE: below T_START at a negative PI only PI advances, whatever the sample is. -/
def Obligations.EdgeInHeaderIsDiscarded : Prop :=
  ∀ s : State, s.cnt.toNat < 50 → s.pi.toInt < 0 → exec .edge s = .next
    { s with
      cnt := 0, pi := BitVec.ofInt 8 (s.pi.toInt + 1),
      cmdValid := false, actValid := false, irPrev := s.irIn }

/-- R124 in an EDGE: a sample below T_BIT at a data position writes no bit and PI advances; at
position 31 COMPLETE follows in the same step. -/
def Obligations.EdgeLogicZero : Prop :=
  ∀ s : State, s.cnt.toNat < 2 → 0 ≤ s.pi.toInt → s.pi.toInt < 32 →
    let t : State :=
      { s with
        cnt := 0, pi := BitVec.ofInt 8 (s.pi.toInt + 1),
        cmdValid := false, actValid := false, irPrev := s.irIn }
    (s.pi.toInt < 31 → exec .edge s = .next t) ∧
    (s.pi.toInt = 31 → ∃ u, exec (.complete false true) t = .next u ∧ exec .edge s = .next u)

/-- R125 in an EDGE: a sample from T_BIT to below T_START at a data position p sets the bit of ACC at
position p (bit 31 − p of its 32-bit view, R9), keeps the other 31 bits, and PI advances; at
position 31 COMPLETE follows in the same step and sees the bit. -/
def Obligations.EdgeLogicOne : Prop :=
  ∀ (s : State) (a : FourBytes), 2 ≤ s.cnt.toNat → s.cnt.toNat < 50 →
    0 ≤ s.pi.toInt → s.pi.toInt < 32 →
    a.toWord = s.acc.toWord ||| 1#32 <<< (31 - s.pi.toInt.toNat) →
    let t : State :=
      { s with
        cnt := 0, pi := BitVec.ofInt 8 (s.pi.toInt + 1), acc := a,
        cmdValid := false, actValid := false, irPrev := s.irIn }
    (s.pi.toInt < 31 → exec .edge s = .next t) ∧
    (s.pi.toInt = 31 → ∃ u, exec (.complete true true) t = .next u ∧ exec .edge s = .next u)

/-- R127: the unreachable indices. From 32 on, an edge below T_START stores no bit and completes at
once; below −2 it is a header edge; a long gap resynchronises everywhere. -/
def Obligations.EdgeOutsideIndexRange : Prop :=
  ∀ s : State,
    (s.cnt.toNat < 50 → 32 ≤ s.pi.toInt → ∃ u,
      exec (.complete (decide (2 ≤ s.cnt.toNat)) false) { s with cnt := 0, irPrev := s.irIn } = .next u ∧
      exec .edge s = .next u) ∧
    (s.cnt.toNat < 50 → s.pi.toInt < -2 → exec .edge s = .next
      { s with
        cnt := 0, pi := BitVec.ofInt 8 (s.pi.toInt + 1),
        cmdValid := false, actValid := false, irPrev := s.irIn }) ∧
    (50 ≤ s.cnt.toNat → exec .edge s = .next
      { s with
        cnt := 0, pi := BitVec.ofInt 8 (-2), acc := ⟨0, 0, 0, 0⟩,
        cmdValid := false, actValid := false, irPrev := s.irIn })

/-! ### The sub-operations of their own (log entry 7) -/

/-- R122, R123, R124: the three sub-operations that write no bit, applied to the state after the
sample-and-reset. Neither CNT nor IR_PREV is touched. -/
def Obligations.SubOperationsWithoutBit : Prop :=
  (∀ (o r l : Bool) (s : State), exec (.resync o r l) s = .next
    { s with
      pi := BitVec.ofInt 8 (-2), acc := ⟨0, 0, 0, 0⟩, cmdValid := false, actValid := false }) ∧
  (∀ (o : Bool) (s : State), exec (.header o) s = .next
    { s with pi := BitVec.ofInt 8 (s.pi.toInt + 1), cmdValid := false, actValid := false }) ∧
  (∀ (l : Bool) (s : State), exec (.bit0 l) s = .next
    { s with pi := BitVec.ofInt 8 (s.pi.toInt + 1), cmdValid := false, actValid := false })

/-- R125, R52: BIT1 of its own. At a data position it sets that bit; at any other PI no bit is
accessed. PI advances in both cases. -/
def Obligations.SubOperationSetsBit : Prop :=
  ∀ (l : Bool) (s : State) (a : FourBytes),
    a.toWord = (if 0 ≤ s.pi.toInt ∧ s.pi.toInt < 32 then
      s.acc.toWord ||| 1#32 <<< (31 - s.pi.toInt.toNat) else s.acc.toWord) →
    exec (.bit1 l) s = .next
      { s with
        acc := a, pi := BitVec.ofInt 8 (s.pi.toInt + 1), cmdValid := false, actValid := false }

/-- R126, R151, R154: COMPLETE as an operation of its own, from every state (log entry 7: inside an
EDGE or EDGT it is performed only where R126's condition holds). It snapshots ACC into CMD, clears
ACC, sets PI to 0 and CMD_VALID to 1, emits one Dispatch with the four bytes, and looks bytes 1 to 3
up: on an exact match ACT and ACT_VALID are written and one Action is emitted, on none ACT keeps its
value and ACT_VALID is 0. -/
def Obligations.CompleteSnapshotsDispatchesLooksUp : Prop :=
  ∀ (o r : Bool) (s : State),
    let k : BitVec 24 := s.acc.b1 ++ s.acc.b2 ++ s.acc.b3
    let hit : Option (Action × ActCode) :=
      if k = 0xFF18E7 then some (.up, 0)
      else if k = 0xFF10EF then some (.left, 1)
      else if k = 0xFF5AA5 then some (.right, 2)
      else if k = 0xFF4AB5 then some (.down, 3)
      else none
    exec (.complete o r) s = .next
      { s with
        cmd := s.acc, acc := ⟨0, 0, 0, 0⟩, pi := 0, cmdValid := true,
        actValid := hit.isSome,
        act := (match hit with
          | some x => x.2
          | none => s.act),
        events := s.events ++ (s.stepNo, .dispatch s.acc.b0 s.acc.b1 s.acc.b2 s.acc.b3)
          :: (hit.toList.map fun x => (s.stepNo, .action x.1)) }

/-- R151: the four matches of the lookup, ACT codes in the table's order; R154: no match writes
ACT_VALID = 0 and keeps ACT. Byte 0 has no influence. -/
def Obligations.LookupRowsWriteActionCode : Prop :=
  (∀ (b : Byte) (s : State), exec (.actUp b) s = .next
    { s with act := 0, actValid := true, events := s.events ++ [(s.stepNo, .action .up)] }) ∧
  (∀ (b : Byte) (s : State), exec (.actLeft b) s = .next
    { s with act := 1, actValid := true, events := s.events ++ [(s.stepNo, .action .left)] }) ∧
  (∀ (b : Byte) (s : State), exec (.actRight b) s = .next
    { s with act := 2, actValid := true, events := s.events ++ [(s.stepNo, .action .right)] }) ∧
  (∀ (b : Byte) (s : State), exec (.actDown b) s = .next
    { s with act := 3, actValid := true, events := s.events ++ [(s.stepNo, .action .down)] }) ∧
  (∀ (w : Word) (s : State), exec (.noMatch w) s = .next { s with actValid := false })

/-! ### EDGT -/

/-- R131 for this hardware (edge_first, log entry 8): an EDGT is the EDGE of the same state, but CNT is
1 afterwards: the tick belongs to the next gap. -/
def Obligations.EdgtIsEdgeThenTick : Prop :=
  ∀ s : State, ∃ t : State, exec .edge s = .next t ∧ exec .edgt s = .next { t with cnt := 1 }

/-- R131, R59, for every legal profile and both orders: under edge_first the sample is CNT and CNT
ends at 1; under tick_first the sample is CNT + 1, saturating at CEIL, and CNT ends at 0. In both
the rest is what an EDGE with that sample does. -/
def Obligations.EdgtTakesOneOfTwoOrders : Prop :=
  ∀ (c : Profile) (s : State), c.wf = true →
    (c.simulOrder = .edgeFirst → edgtOp c s = { edgeOp c s with cnt := 1 }) ∧
    (c.simulOrder = .tickFirst → (edgtOp c s).cnt = 0 ∧ ∃ n : Count,
      (s.cnt.toNat < c.ceil → n.toNat = s.cnt.toNat + 1) ∧ (c.ceil ≤ s.cnt.toNat → n = s.cnt) ∧
      edgtOp c s = edgeOp c { s with cnt := n })

/-- R133: for every legal profile, an EDGE or EDGT whose sample reaches T_START leaves PI = −2 and
ACC = 0, whatever PI and ACC were, reachable or not, with both strobes 0 and nothing emitted; CNT is
0, or 1 in an EDGT under edge_first; CMD and ACT stay. The sample is CNT, in an EDGT under tick_first
one more below CEIL (R59). -/
def Obligations.ResyncIgnoresPriorState : Prop :=
  ∀ (c : Profile) (s t : State), c.wf = true →
    ((t = edgeOp c s ∧ c.tStart ≤ s.cnt.toNat) ∨
      (t = edgtOp c s ∧ c.tStart ≤ s.cnt.toNat) ∨
      (t = edgtOp c s ∧ c.simulOrder = .tickFirst ∧ c.tStart = s.cnt.toNat + 1)) →
    t.pi.toInt = -2 ∧ t.acc.toWord = 0 ∧ t.cmdValid = false ∧ t.actValid = false ∧
    (t.cnt = 0 ∨ (t = edgtOp c s ∧ c.simulOrder = .edgeFirst ∧ t.cnt = 1)) ∧
    t.irPrev = s.irIn ∧ t.cmd = s.cmd ∧ t.act = s.act ∧ t.events = s.events

/-! ### The condition word, the command word, the encodings -/

/-- R73 against R121: an EDGE is the sequence of sub-operations that its condition word selects, run
on the state after the sample-and-reset; and likewise an EDGT, with CNT = 1. What a sub-operation of
its own does is log entry 7. -/
def Obligations.EdgeRunsItsConditionWord : Prop :=
  ∀ s : State,
    let w : CondWord :=
      BitVec.ofBool (decide (50 ≤ s.cnt.toNat)) ++ BitVec.ofBool (decide (2 ≤ s.cnt.toNat))
        ++ BitVec.ofBool (decide (0 ≤ s.pi.toInt ∧ s.pi.toInt < 32))
        ++ BitVec.ofBool (decide (32 ≤ s.pi.toInt + 1))
    let u : State := { s with cmdValid := false, actValid := false, irPrev := s.irIn }
    exec .edge s = execSeq (decodeCond w) { u with cnt := 0 } ∧
    exec .edgt s = execSeq (decodeCond w) { u with cnt := 1 }

/-- R126, R151: COMPLETE is the snapshot and the Dispatch event, followed by the row of format CMD
that the command word selects (log entry 7). -/
def Obligations.CompleteRunsItsCommandWord : Prop :=
  ∀ (o r : Bool) (s : State), exec (.complete o r) s = exec (decodeCmd s.acc.toWord)
    { s with
      cmd := s.acc, acc := ⟨0, 0, 0, 0⟩, pi := 0, cmdValid := true, actValid := false,
      events := s.events ++ [(s.stepNo, .dispatch s.acc.b0 s.acc.b1 s.acc.b2 s.acc.b3)] }

/-- R71, R72: the operation of each of the eight event words, written out. -/
def Obligations.EventWordsDecode : Prop :=
  decodeEv 0b000 = .idle ∧ decodeEv 0b001 = .tick ∧ decodeEv 0b010 = .edge ∧
    decodeEv 0b011 = .edgt ∧ decodeEv 0b100 = .reset false false ∧
    decodeEv 0b101 = .reset false true ∧ decodeEv 0b110 = .reset true false ∧
    decodeEv 0b111 = .reset true true

/-- R73: which condition words select which sub-operation, by the match and mask of each row, for
every condition word; COMPLETE is selected last. -/
def Obligations.ConditionWordsFollowMasks : Prop :=
  ∀ w : CondWord,
    (w &&& 0x8 = 0x8 ↔ ∃ o r l, decodeCond w = [.resync o r l]) ∧
    (w &&& 0xB = 0x0 ↔ ∃ o, decodeCond w = [.header o]) ∧
    (w &&& 0xE = 0x2 ↔ ∃ l, (decodeCond w).head? = some (.bit0 l)) ∧
    (w &&& 0xE = 0x6 ↔ ∃ l, (decodeCond w).head? = some (.bit1 l)) ∧
    (w &&& 0x9 = 0x1 ↔ ∃ o r, (decodeCond w).getLast? = some (.complete o r))

/-- R78, R79: which command words select which row, by match and mask, for every 32-bit word; the
default row takes every other key. -/
def Obligations.CommandWordsFollowMasks : Prop :=
  ∀ w : Word,
    (w &&& 0x00FFFFFF = 0x00FF18E7 ↔ ∃ b, decodeCmd w = .actUp b) ∧
    (w &&& 0x00FFFFFF = 0x00FF10EF ↔ ∃ b, decodeCmd w = .actLeft b) ∧
    (w &&& 0x00FFFFFF = 0x00FF5AA5 ↔ ∃ b, decodeCmd w = .actRight b) ∧
    (w &&& 0x00FFFFFF = 0x00FF4AB5 ↔ ∃ b, decodeCmd w = .actDown b) ∧
    (decodeCmd w = .noMatch w ↔
      ¬ (w &&& 0x00FFFFFF = 0x00FF18E7) ∧ ¬ (w &&& 0x00FFFFFF = 0x00FF10EF) ∧
      ¬ (w &&& 0x00FFFFFF = 0x00FF5AA5) ∧ ¬ (w &&& 0x00FFFFFF = 0x00FF4AB5))

/-- R71, R73, R78: decode and encode agree in both directions. A well-formed instruction is among
those its word selects (and is the only one, but for COMPLETE, which comes after the BIT0 or BIT1 of
the same word); and every instruction a word selects encodes back to that word, so no bit is lost. -/
def Obligations.DecodeAndEncodeAgree : Prop :=
  (∀ i : Instr, i.wf = true → i ∈ decode (encode i)) ∧
  (∀ (k : Code) (i : Instr), i ∈ decode k → encode i = k ∧ i.wf = true)

/-- R52, R51: the bit addressing of ACC. A deposit at position p sets bit 7 − (p mod 8) of byte
p / 8 and no other bit of the four bytes, and that is bit 31 − p of the 32-bit view. -/
def Obligations.DepositAddressesOneBit : Prop :=
  ∀ (f : FourBytes) (p : Nat), p < 32 →
    (f.setBit p).toWord = f.toWord ||| 1#32 <<< (31 - p) ∧
    ∀ i j : Nat, i < 4 → j < 8 →
      ((f.setBit p).get i).getLsbD j
        = ((f.get i).getLsbD j || (decide (i = p / 8) && decide (j = 7 - p % 8)))

/-- R155, R77: byte 0 is never inspected. Two states that differ only in byte 0 of ACC complete with
the same strobes, the same ACT and the same Action event; only CMD[0] and the Dispatch event carry
byte 0. -/
def Obligations.ByteZeroNeverInspected : Prop :=
  ∀ (o r : Bool) (s : State) (b : Byte), ∃ t u : State,
    exec (.complete o r) s = .next t ∧
    exec (.complete o r) { s with acc := { s.acc with b0 := b } } = .next u ∧
    u = { t with cmd := { t.cmd with b0 := b }, events := u.events } ∧
    (∃ es, t.events = s.events ++ (s.stepNo, .dispatch s.acc.b0 s.acc.b1 s.acc.b2 s.acc.b3) :: es ∧
      u.events = s.events ++ (s.stepNo, .dispatch b s.acc.b1 s.acc.b2 s.acc.b3) :: es)

/-! ### One step -/

/-- R172, R173, R174: a step takes its input, forms the event word and runs the operation the word
decodes to; the step adds the drive of `ir_in`, the advance of the input stream and of the step
number. First a pin-level input, then an event-level one, whose line level is 0 exactly in an EDGE
or EDGT step (R92; log entry 4), then the free input of this step's number when none is listed (log
entry 2, the model's choice). -/
def Obligations.StepRunsDecodedOperation : Prop :=
  (∀ (s : State) (rst tick irIn : Bool) (xs : List Input), s.inputs = .pins rst tick irIn :: xs →
    ∃ t : State,
      exec (decodeEv (BitVec.ofBool rst ++ BitVec.ofBool (s.irPrev && !irIn) ++ BitVec.ofBool tick))
        { s with irIn := irIn, inputs := xs } = .next t ∧
      step s = .next { t with stepNo := t.stepNo + 1 }) ∧
  (∀ (s : State) (ev : EventWord) (xs : List Input), s.inputs = .event ev :: xs →
    ∃ t : State,
      exec (decodeEv ev)
        { s with irIn := !(decide (decodeEv ev = .edge ∨ decodeEv ev = .edgt)), inputs := xs } = .next t ∧
      step s = .next { t with stepNo := t.stepNo + 1 }) ∧
  (∀ s : State, s.inputs = [] → step s = endStep (exec
    (decodeEv (eventWordOf s.irPrev (Config.freeInput s.stepNo)))
    { s with irIn := lineLevel (Config.freeInput s.stepNo) }))

/-- R174, R190: the step function is total: every state, reachable or not, has a next state; no step
faults, blocks or refuses. A step is numbered on and takes one input. -/
def Obligations.EveryStepHasNextState : Prop :=
  ∀ s : State, ∃ t : State, step s = .next t ∧ t.stepNo = s.stepNo + 1 ∧ t.inputs = s.inputs.tail

/-- R194, R220: `rst` dominates. A step whose event word has `rst` = 1 writes every register with its
reset value and emits nothing, whatever `edge` and `tick` are. -/
def Obligations.ResetDominatesEdgeAndTick : Prop :=
  ∀ s : State, s.eventWord.getLsbD 2 = true → ∃ t : State, step s = .next t ∧
    t = { State.reset with
      irIn := t.irIn, inputs := s.inputs.tail, stepNo := s.stepNo + 1, events := s.events }

/-- R172: after a pin-level step IR_PREV holds the level of `ir_in` in that step, but 1 after a RESET
step; and the step reports an edge exactly when IR_PREV was 1 and the line is 0. -/
def Obligations.EdgeDetectorFollowsLine : Prop :=
  ∀ (s : State) (rst tick irIn : Bool) (xs : List Input), s.inputs = .pins rst tick irIn :: xs →
    (s.eventWord.getLsbD 1 = true ↔ s.irPrev = true ∧ irIn = false) ∧
    s.eventWord.getLsbD 2 = rst ∧ s.eventWord.getLsbD 0 = tick ∧
    ∃ t : State, step s = .next t ∧ t.irPrev = (rst || irIn)

/-- R179 (b): with pin-level inputs, two consecutive steps without reset never both report an edge. -/
def Obligations.NoTwoPinEdgesInARow : Prop :=
  ∀ (s t : State) (k1 l1 r2 k2 l2 : Bool) (xs : List Input),
    s.inputs = .pins false k1 l1 :: .pins r2 k2 l2 :: xs → step s = .next t →
    s.eventWord.getLsbD 1 = true → t.eventWord.getLsbD 1 = false

/-- R37, R23, R26, R28 as the invariant that every step keeps, from every state that has it and for
every input. -/
def Obligations.StepKeepsInvariant : Prop :=
  ∀ s t : State, s.Inv Config.hw → step s = .next t → t.Inv Config.hw

/-- The reset state has the invariant (R35, R37, R23, R26). -/
def Obligations.ResetMeetsInvariant : Prop := State.reset.Inv Config.hw

/-- R37, R23, R26 for every legal profile and both orders: the operations keep the invariant of
their own profile. -/
def Obligations.EveryLegalProfileKeepsInvariant : Prop :=
  ∀ (c : Profile) (s : State), c.wf = true → s.Inv c →
    (idleOp s).Inv c ∧ (tickOp c s).Inv c ∧ (edgeOp c s).Inv c ∧ (edgtOp c s).Inv c ∧
    (resetOp s).Inv c

/-- R27, R28, R152, R153, R157: the strobes after a step say which events the step emitted. With
CMD_VALID = 0 none; with CMD_VALID = 1 and ACT_VALID = 0 one Dispatch with the bytes of CMD; with
both 1 that Dispatch and one Action, whose code is in ACT; and ACT_VALID = 1 implies CMD_VALID = 1. -/
def Obligations.StrobesReportEvents : Prop :=
  ∀ s t : State, step s = .next t →
    (t.cmdValid = false → t.actValid = false ∧ t.events = s.events) ∧
    (t.cmdValid = true → t.actValid = false → t.events = s.events ++
      [(s.stepNo, .dispatch t.cmd.b0 t.cmd.b1 t.cmd.b2 t.cmd.b3)]) ∧
    (t.cmdValid = true → t.actValid = true → ∃ a : Action, t.act = a.code ∧ t.events = s.events ++
      [(s.stepNo, .dispatch t.cmd.b0 t.cmd.b1 t.cmd.b2 t.cmd.b3), (s.stepNo, .action a)])

/-- R178, R27: a strobe lasts exactly one step. From a state with the invariant, the step after a
completion raises neither strobe again. -/
def Obligations.StrobesLastOneStep : Prop :=
  ∀ s t : State, s.Inv Config.hw → s.cmdValid = true → step s = .next t →
    t.cmdValid = false ∧ t.actValid = false

/-- R25, R28: CMD is written only by a completion and by RESET, and ACT only by a step that sets
ACT_VALID and by RESET. -/
def Obligations.OutputsHoldBetweenCompletions : Prop :=
  ∀ s t : State, step s = .next t → s.eventWord.getLsbD 2 = false →
    (t.cmdValid = false → t.cmd = s.cmd) ∧ (t.actValid = false → t.act = s.act)

/-- R22, R61: PI and ACC are written only by the edge operations and by RESET: a step that reports
neither leaves both, and CMD and ACT, as they were. -/
def Obligations.OnlyEdgesMoveTheFrame : Prop :=
  ∀ s t : State, step s = .next t → s.eventWord.getLsbD 2 = false →
    s.eventWord.getLsbD 1 = false →
    t.pi = s.pi ∧ t.acc = s.acc ∧ t.cmd = s.cmd ∧ t.act = s.act ∧ t.events = s.events

/-- R38: the only changes of PI in a step, each with the event word and the sample it happens for:
none without edge and reset; + 1 for an edge below T_START whose incremented index is below 32; −2
for reset and for an edge from T_START on; 0, with a completed frame, for an edge below T_START whose
incremented index reaches 32. -/
def Obligations.IndexMovesInFourWays : Prop :=
  ∀ s t : State, step s = .next t →
    (s.eventWord.getLsbD 2 = false ∧ s.eventWord.getLsbD 1 = false ∧ t.pi = s.pi) ∨
    (s.eventWord.getLsbD 2 = false ∧ s.eventWord.getLsbD 1 = true ∧ s.cnt.toNat < 50 ∧
      s.pi.toInt + 1 < 32 ∧ t.pi.toInt = s.pi.toInt + 1) ∨
    ((s.eventWord.getLsbD 2 = true ∨ (s.eventWord.getLsbD 1 = true ∧ 50 ≤ s.cnt.toNat)) ∧
      t.pi.toInt = -2) ∨
    (s.eventWord.getLsbD 2 = false ∧ s.eventWord.getLsbD 1 = true ∧ s.cnt.toNat < 50 ∧
      32 ≤ s.pi.toInt + 1 ∧ t.pi.toInt = 0 ∧ t.cmdValid = true)

/-! ### Runs of operations -/

/-- R102, R103, R104: in any run of TICK and IDLE operations that holds n ticks, CNT goes from c to
the lesser of c + n and the ceiling 50, and PI, ACC, CMD, ACT and the events stay. -/
def Obligations.TicksAccumulateUpToCeiling : Prop :=
  ∀ (is : List Instr) (s : State), (∀ i ∈ is, isQuiet i = true) → s.cnt.toNat ≤ 50 →
    ∃ t : State, execSeq is s = .next t ∧
      t.cnt.toNat = min (s.cnt.toNat + is.count .tick) 50 ∧ s.cnt.toNat ≤ t.cnt.toNat ∧
      t.pi = s.pi ∧ t.acc = s.acc ∧ t.cmd = s.cmd ∧ t.act = s.act ∧ t.events = s.events

/-- R60: conservation of ticks. Over any run of IDLE, TICK, EDGE and EDGT operations in which CNT
never saturates, the sum of the samples plus the final CNT is the first CNT plus the number of tick
events. -/
def Obligations.TicksAreConserved : Prop :=
  ∀ (is : List Instr) (s : State), (∀ i ∈ is, isRunning i = true) → neverSaturates is s →
    ∃ t : State, execSeq is s = .next t ∧
      samplesOf is s + t.cnt.toNat = s.cnt.toNat + ticksIn is

/-- R129, R234: a stalled frame waits for any number of TICK and IDLE steps with PI and ACC as they
are and nothing emitted; the next edge discards it when, and only when, CNT has reached T_START by
then. Below T_START the edge goes on with the frame: PI moves on (to 0 from 31, where the frame
completes), and before that no bit of ACC but the one at PI can change. -/
def Obligations.StalledFrameWaitsForLongGap : Prop :=
  ∀ (is : List Instr) (s : State), (∀ i ∈ is, isQuiet i = true) → s.Inv Config.hw →
    ∃ u t : State, execSeq is s = .next u ∧ exec .edge u = .next t ∧
      u.pi = s.pi ∧ u.acc = s.acc ∧ u.events = s.events ∧
      (50 ≤ s.cnt.toNat + is.count .tick →
        t.pi.toInt = -2 ∧ t.acc.toWord = 0 ∧ t.events = s.events) ∧
      (s.cnt.toNat + is.count .tick < 50 →
        (t.pi.toInt = if s.pi.toInt = 31 then 0 else s.pi.toInt + 1) ∧
        (s.pi.toInt < 31 → t.events = s.events ∧
          ∀ p : Nat, p < 32 → (p : Int) ≠ s.pi.toInt → t.acc.bitAt p = s.acc.bitAt p))

/-- R176: IDLE operations change nothing but the strobes and IR_PREV: taking all of them out of a run
changes neither CNT, PI, ACC, CMD, ACT nor the events. -/
def Obligations.IdleStepsDoNotMatter : Prop :=
  ∀ (is : List Instr) (s : State), (∀ i ∈ is, isEvent i = true) →
    ∃ t u : State, execSeq is s = .next t ∧ execSeq (is.filter fun i => i ≠ .idle) s = .next u ∧
      t.cnt = u.cnt ∧ t.pi = u.pi ∧ t.acc = u.acc ∧ t.cmd = u.cmd ∧ t.act = u.act ∧
      t.events = u.events

/-- R134, R75: a frame that is not yet complete. From a state with PI = −2 and ACC = 0, after k < 34
edges, EDGE or EDGT, with samples below T_START, PI is k − 2 and nothing has been emitted. The samples
are those of R104 under edge_first (log entry 8). -/
def Obligations.ShortFrameDoesNotComplete : Prop :=
  ∀ (gs : List Gap) (s : State), gs.length < 34 →
    (∀ e ∈ gapSamples s.cnt.toNat gs, e < 50) → s.pi.toInt = -2 → s.acc.toWord = 0 →
    ∃ t : State, execSeq (gs.flatMap Gap.ops) s = .next t ∧
      t.cnt.toNat = countAfter s.cnt.toNat gs ∧
      t.pi.toInt = (gs.length : Int) - 2 ∧ t.cmd = s.cmd ∧ t.events = s.events

/-- R134, R76, R75: a whole frame. From a state with PI = −2 and ACC = 0 (the state after a RESYNC has
CNT = 0, or 1 after an EDGT, R223; here CNT is any count that keeps the first sample below T_START),
34 edges, each EDGE or EDGT, with samples below T_START complete exactly one frame, in the step of the
34th: one Dispatch event, whose data bit p (bit 31 − p of the 32-bit command) is 1 exactly when the
sample of data edge p is at least T_BIT; the two header samples are not examined. At most an Action
event follows it. PI is 0, ACC is cleared, and CNT is what the last edge leaves. The samples are those
of R104 under edge_first (log entry 8). -/
def Obligations.FrameOf34EdgesDispatchesItsBits : Prop :=
  ∀ (gs : List Gap) (s : State), gs.length = 34 →
    (∀ e ∈ gapSamples s.cnt.toNat gs, e < 50) → s.pi.toInt = -2 → s.acc.toWord = 0 →
    ∃ t : State, execSeq (gs.flatMap Gap.ops) s = .next t ∧
      t.cnt.toNat = countAfter s.cnt.toNat gs ∧ t.pi.toInt = 0 ∧ t.acc.toWord = 0 ∧
      t.cmdValid = true ∧
      (∀ p : Nat, p < 32 → t.cmd.toWord.getLsbD (31 - p)
        = decide (2 ≤ (gapSamples s.cnt.toNat gs).getD (p + 2) 0)) ∧
      ∃ as : List Action, as.length ≤ 1 ∧
        t.events = s.events ++ (s.stepNo, .dispatch t.cmd.b0 t.cmd.b1 t.cmd.b2 t.cmd.b3)
          :: as.map fun a => (s.stepNo, .action a)

/-! ### Profiles -/

/-- R7: which profiles are built and which are refused, and that this hardware's is built. -/
def Obligations.OnlyLegalProfilesAreBuilt : Prop :=
  (∀ (b t l : Nat) (o : SimulOrder),
    (Profile.build b t l o = some ⟨b, t, l, o⟩ ↔ 0 < b ∧ b < t ∧ t ≤ l ∧ l ≤ 63) ∧
    (Profile.build b t l o = none ↔ ¬ (0 < b ∧ b < t ∧ t ≤ l ∧ l ≤ 63))) ∧
  Profile.build 2 50 50 .edgeFirst = some Config.hw

/-- R237: a ceiling above T_START loses nothing. Two legal profiles that differ only in CEIL decode a
gap of n ticks, counted from 0 and saturating at their own ceilings, alike. -/
def Obligations.CeilingAboveThresholdDecodesAlike : Prop :=
  ∀ (c d : Profile) (n : Nat) (s : State), c.wf = true → d.wf = true →
    d.tBit = c.tBit → d.tStart = c.tStart →
    edgeOp c { s with cnt := BitVec.ofNat 6 (min n c.ceil) }
      = edgeOp d { s with cnt := BitVec.ofNat 6 (min n d.ceil) }

/-! ### Placing words (log entry 6) -/

/-- The model's placing of table words (log entry 6), for R71, R73 and R78: a placed event word is the
next step's event word; a placed condition word that a sample can have (s implies o) is the one the
next EDGE computes; and a placed command word is the CMD of the next step, which completes a
frame. -/
def Obligations.PlacedWordIsNextStepsWord : Prop :=
  (∀ (s : State) (w : Nat), w < 8 →
    (s.withFetchWord 8 w).eventWord = BitVec.ofNat 3 w ∧
    (s.withFetchWord 8 w).inputs.tail = s.inputs) ∧
  (∀ (s : State) (w : CondWord), (w.getLsbD 3 = true → w.getLsbD 2 = true) →
    let t := s.withFetchWord 4 w.toNat
    t.eventWord = 0b010 ∧ condWord Config.hw t.cnt.toNat t.piVal = w) ∧
  (∀ (s : State) (w : Word), ∃ t : State, step (s.withFetchWord 32 w.toNat) = .next t ∧
    t.cmd.toWord = w ∧ t.cmdValid = true ∧ t.inputs = s.inputs)
end

