-- ==== Sys2Proof/Laws/State.lean ====
section
/-! SUPPORT. One lemma per field per update of State, true by rfl, so that no later proof unfolds a
record update. -/

namespace Sys2Proof.Machine.State

section setCnt
variable (s : State) (v : Count)

@[simp] theorem setCnt_cnt : (s.setCnt v).cnt = v := rfl
@[simp] theorem setCnt_pi : (s.setCnt v).pi = s.pi := rfl
@[simp] theorem setCnt_acc : (s.setCnt v).acc = s.acc := rfl
@[simp] theorem setCnt_cmd : (s.setCnt v).cmd = s.cmd := rfl
@[simp] theorem setCnt_cmdValid : (s.setCnt v).cmdValid = s.cmdValid := rfl
@[simp] theorem setCnt_actValid : (s.setCnt v).actValid = s.actValid := rfl
@[simp] theorem setCnt_act : (s.setCnt v).act = s.act := rfl
@[simp] theorem setCnt_irPrev : (s.setCnt v).irPrev = s.irPrev := rfl
@[simp] theorem setCnt_irIn : (s.setCnt v).irIn = s.irIn := rfl
@[simp] theorem setCnt_inputs : (s.setCnt v).inputs = s.inputs := rfl
@[simp] theorem setCnt_stepNo : (s.setCnt v).stepNo = s.stepNo := rfl
@[simp] theorem setCnt_events : (s.setCnt v).events = s.events := rfl

end setCnt

section setPi
variable (s : State) (v : PulseIndex)

@[simp] theorem setPi_cnt : (s.setPi v).cnt = s.cnt := rfl
@[simp] theorem setPi_pi : (s.setPi v).pi = v := rfl
@[simp] theorem setPi_acc : (s.setPi v).acc = s.acc := rfl
@[simp] theorem setPi_cmd : (s.setPi v).cmd = s.cmd := rfl
@[simp] theorem setPi_cmdValid : (s.setPi v).cmdValid = s.cmdValid := rfl
@[simp] theorem setPi_actValid : (s.setPi v).actValid = s.actValid := rfl
@[simp] theorem setPi_act : (s.setPi v).act = s.act := rfl
@[simp] theorem setPi_irPrev : (s.setPi v).irPrev = s.irPrev := rfl
@[simp] theorem setPi_irIn : (s.setPi v).irIn = s.irIn := rfl
@[simp] theorem setPi_inputs : (s.setPi v).inputs = s.inputs := rfl
@[simp] theorem setPi_stepNo : (s.setPi v).stepNo = s.stepNo := rfl
@[simp] theorem setPi_events : (s.setPi v).events = s.events := rfl

end setPi

section setAcc
variable (s : State) (v : FourBytes)

@[simp] theorem setAcc_cnt : (s.setAcc v).cnt = s.cnt := rfl
@[simp] theorem setAcc_pi : (s.setAcc v).pi = s.pi := rfl
@[simp] theorem setAcc_acc : (s.setAcc v).acc = v := rfl
@[simp] theorem setAcc_cmd : (s.setAcc v).cmd = s.cmd := rfl
@[simp] theorem setAcc_cmdValid : (s.setAcc v).cmdValid = s.cmdValid := rfl
@[simp] theorem setAcc_actValid : (s.setAcc v).actValid = s.actValid := rfl
@[simp] theorem setAcc_act : (s.setAcc v).act = s.act := rfl
@[simp] theorem setAcc_irPrev : (s.setAcc v).irPrev = s.irPrev := rfl
@[simp] theorem setAcc_irIn : (s.setAcc v).irIn = s.irIn := rfl
@[simp] theorem setAcc_inputs : (s.setAcc v).inputs = s.inputs := rfl
@[simp] theorem setAcc_stepNo : (s.setAcc v).stepNo = s.stepNo := rfl
@[simp] theorem setAcc_events : (s.setAcc v).events = s.events := rfl

end setAcc

section setCmd
variable (s : State) (v : FourBytes)

@[simp] theorem setCmd_cnt : (s.setCmd v).cnt = s.cnt := rfl
@[simp] theorem setCmd_pi : (s.setCmd v).pi = s.pi := rfl
@[simp] theorem setCmd_acc : (s.setCmd v).acc = s.acc := rfl
@[simp] theorem setCmd_cmd : (s.setCmd v).cmd = v := rfl
@[simp] theorem setCmd_cmdValid : (s.setCmd v).cmdValid = s.cmdValid := rfl
@[simp] theorem setCmd_actValid : (s.setCmd v).actValid = s.actValid := rfl
@[simp] theorem setCmd_act : (s.setCmd v).act = s.act := rfl
@[simp] theorem setCmd_irPrev : (s.setCmd v).irPrev = s.irPrev := rfl
@[simp] theorem setCmd_irIn : (s.setCmd v).irIn = s.irIn := rfl
@[simp] theorem setCmd_inputs : (s.setCmd v).inputs = s.inputs := rfl
@[simp] theorem setCmd_stepNo : (s.setCmd v).stepNo = s.stepNo := rfl
@[simp] theorem setCmd_events : (s.setCmd v).events = s.events := rfl

end setCmd

section setCmdValid
variable (s : State) (v : Bool)

@[simp] theorem setCmdValid_cnt : (s.setCmdValid v).cnt = s.cnt := rfl
@[simp] theorem setCmdValid_pi : (s.setCmdValid v).pi = s.pi := rfl
@[simp] theorem setCmdValid_acc : (s.setCmdValid v).acc = s.acc := rfl
@[simp] theorem setCmdValid_cmd : (s.setCmdValid v).cmd = s.cmd := rfl
@[simp] theorem setCmdValid_cmdValid : (s.setCmdValid v).cmdValid = v := rfl
@[simp] theorem setCmdValid_actValid : (s.setCmdValid v).actValid = s.actValid := rfl
@[simp] theorem setCmdValid_act : (s.setCmdValid v).act = s.act := rfl
@[simp] theorem setCmdValid_irPrev : (s.setCmdValid v).irPrev = s.irPrev := rfl
@[simp] theorem setCmdValid_irIn : (s.setCmdValid v).irIn = s.irIn := rfl
@[simp] theorem setCmdValid_inputs : (s.setCmdValid v).inputs = s.inputs := rfl
@[simp] theorem setCmdValid_stepNo : (s.setCmdValid v).stepNo = s.stepNo := rfl
@[simp] theorem setCmdValid_events : (s.setCmdValid v).events = s.events := rfl

end setCmdValid

section setActValid
variable (s : State) (v : Bool)

@[simp] theorem setActValid_cnt : (s.setActValid v).cnt = s.cnt := rfl
@[simp] theorem setActValid_pi : (s.setActValid v).pi = s.pi := rfl
@[simp] theorem setActValid_acc : (s.setActValid v).acc = s.acc := rfl
@[simp] theorem setActValid_cmd : (s.setActValid v).cmd = s.cmd := rfl
@[simp] theorem setActValid_cmdValid : (s.setActValid v).cmdValid = s.cmdValid := rfl
@[simp] theorem setActValid_actValid : (s.setActValid v).actValid = v := rfl
@[simp] theorem setActValid_act : (s.setActValid v).act = s.act := rfl
@[simp] theorem setActValid_irPrev : (s.setActValid v).irPrev = s.irPrev := rfl
@[simp] theorem setActValid_irIn : (s.setActValid v).irIn = s.irIn := rfl
@[simp] theorem setActValid_inputs : (s.setActValid v).inputs = s.inputs := rfl
@[simp] theorem setActValid_stepNo : (s.setActValid v).stepNo = s.stepNo := rfl
@[simp] theorem setActValid_events : (s.setActValid v).events = s.events := rfl

end setActValid

section setAct
variable (s : State) (v : ActCode)

@[simp] theorem setAct_cnt : (s.setAct v).cnt = s.cnt := rfl
@[simp] theorem setAct_pi : (s.setAct v).pi = s.pi := rfl
@[simp] theorem setAct_acc : (s.setAct v).acc = s.acc := rfl
@[simp] theorem setAct_cmd : (s.setAct v).cmd = s.cmd := rfl
@[simp] theorem setAct_cmdValid : (s.setAct v).cmdValid = s.cmdValid := rfl
@[simp] theorem setAct_actValid : (s.setAct v).actValid = s.actValid := rfl
@[simp] theorem setAct_act : (s.setAct v).act = v := rfl
@[simp] theorem setAct_irPrev : (s.setAct v).irPrev = s.irPrev := rfl
@[simp] theorem setAct_irIn : (s.setAct v).irIn = s.irIn := rfl
@[simp] theorem setAct_inputs : (s.setAct v).inputs = s.inputs := rfl
@[simp] theorem setAct_stepNo : (s.setAct v).stepNo = s.stepNo := rfl
@[simp] theorem setAct_events : (s.setAct v).events = s.events := rfl

end setAct

section setIrPrev
variable (s : State) (v : Bool)

@[simp] theorem setIrPrev_cnt : (s.setIrPrev v).cnt = s.cnt := rfl
@[simp] theorem setIrPrev_pi : (s.setIrPrev v).pi = s.pi := rfl
@[simp] theorem setIrPrev_acc : (s.setIrPrev v).acc = s.acc := rfl
@[simp] theorem setIrPrev_cmd : (s.setIrPrev v).cmd = s.cmd := rfl
@[simp] theorem setIrPrev_cmdValid : (s.setIrPrev v).cmdValid = s.cmdValid := rfl
@[simp] theorem setIrPrev_actValid : (s.setIrPrev v).actValid = s.actValid := rfl
@[simp] theorem setIrPrev_act : (s.setIrPrev v).act = s.act := rfl
@[simp] theorem setIrPrev_irPrev : (s.setIrPrev v).irPrev = v := rfl
@[simp] theorem setIrPrev_irIn : (s.setIrPrev v).irIn = s.irIn := rfl
@[simp] theorem setIrPrev_inputs : (s.setIrPrev v).inputs = s.inputs := rfl
@[simp] theorem setIrPrev_stepNo : (s.setIrPrev v).stepNo = s.stepNo := rfl
@[simp] theorem setIrPrev_events : (s.setIrPrev v).events = s.events := rfl

end setIrPrev

section setIrIn
variable (s : State) (v : Bool)

@[simp] theorem setIrIn_cnt : (s.setIrIn v).cnt = s.cnt := rfl
@[simp] theorem setIrIn_pi : (s.setIrIn v).pi = s.pi := rfl
@[simp] theorem setIrIn_acc : (s.setIrIn v).acc = s.acc := rfl
@[simp] theorem setIrIn_cmd : (s.setIrIn v).cmd = s.cmd := rfl
@[simp] theorem setIrIn_cmdValid : (s.setIrIn v).cmdValid = s.cmdValid := rfl
@[simp] theorem setIrIn_actValid : (s.setIrIn v).actValid = s.actValid := rfl
@[simp] theorem setIrIn_act : (s.setIrIn v).act = s.act := rfl
@[simp] theorem setIrIn_irPrev : (s.setIrIn v).irPrev = s.irPrev := rfl
@[simp] theorem setIrIn_irIn : (s.setIrIn v).irIn = v := rfl
@[simp] theorem setIrIn_inputs : (s.setIrIn v).inputs = s.inputs := rfl
@[simp] theorem setIrIn_stepNo : (s.setIrIn v).stepNo = s.stepNo := rfl
@[simp] theorem setIrIn_events : (s.setIrIn v).events = s.events := rfl

end setIrIn

section setInputs
variable (s : State) (v : List Input)

@[simp] theorem setInputs_cnt : (s.setInputs v).cnt = s.cnt := rfl
@[simp] theorem setInputs_pi : (s.setInputs v).pi = s.pi := rfl
@[simp] theorem setInputs_acc : (s.setInputs v).acc = s.acc := rfl
@[simp] theorem setInputs_cmd : (s.setInputs v).cmd = s.cmd := rfl
@[simp] theorem setInputs_cmdValid : (s.setInputs v).cmdValid = s.cmdValid := rfl
@[simp] theorem setInputs_actValid : (s.setInputs v).actValid = s.actValid := rfl
@[simp] theorem setInputs_act : (s.setInputs v).act = s.act := rfl
@[simp] theorem setInputs_irPrev : (s.setInputs v).irPrev = s.irPrev := rfl
@[simp] theorem setInputs_irIn : (s.setInputs v).irIn = s.irIn := rfl
@[simp] theorem setInputs_inputs : (s.setInputs v).inputs = v := rfl
@[simp] theorem setInputs_stepNo : (s.setInputs v).stepNo = s.stepNo := rfl
@[simp] theorem setInputs_events : (s.setInputs v).events = s.events := rfl

end setInputs

section setStepNo
variable (s : State) (v : Nat)

@[simp] theorem setStepNo_cnt : (s.setStepNo v).cnt = s.cnt := rfl
@[simp] theorem setStepNo_pi : (s.setStepNo v).pi = s.pi := rfl
@[simp] theorem setStepNo_acc : (s.setStepNo v).acc = s.acc := rfl
@[simp] theorem setStepNo_cmd : (s.setStepNo v).cmd = s.cmd := rfl
@[simp] theorem setStepNo_cmdValid : (s.setStepNo v).cmdValid = s.cmdValid := rfl
@[simp] theorem setStepNo_actValid : (s.setStepNo v).actValid = s.actValid := rfl
@[simp] theorem setStepNo_act : (s.setStepNo v).act = s.act := rfl
@[simp] theorem setStepNo_irPrev : (s.setStepNo v).irPrev = s.irPrev := rfl
@[simp] theorem setStepNo_irIn : (s.setStepNo v).irIn = s.irIn := rfl
@[simp] theorem setStepNo_inputs : (s.setStepNo v).inputs = s.inputs := rfl
@[simp] theorem setStepNo_stepNo : (s.setStepNo v).stepNo = v := rfl
@[simp] theorem setStepNo_events : (s.setStepNo v).events = s.events := rfl

end setStepNo

section setEvents
variable (s : State) (v : List (Nat × Event))

@[simp] theorem setEvents_cnt : (s.setEvents v).cnt = s.cnt := rfl
@[simp] theorem setEvents_pi : (s.setEvents v).pi = s.pi := rfl
@[simp] theorem setEvents_acc : (s.setEvents v).acc = s.acc := rfl
@[simp] theorem setEvents_cmd : (s.setEvents v).cmd = s.cmd := rfl
@[simp] theorem setEvents_cmdValid : (s.setEvents v).cmdValid = s.cmdValid := rfl
@[simp] theorem setEvents_actValid : (s.setEvents v).actValid = s.actValid := rfl
@[simp] theorem setEvents_act : (s.setEvents v).act = s.act := rfl
@[simp] theorem setEvents_irPrev : (s.setEvents v).irPrev = s.irPrev := rfl
@[simp] theorem setEvents_irIn : (s.setEvents v).irIn = s.irIn := rfl
@[simp] theorem setEvents_inputs : (s.setEvents v).inputs = s.inputs := rfl
@[simp] theorem setEvents_stepNo : (s.setEvents v).stepNo = s.stepNo := rfl
@[simp] theorem setEvents_events : (s.setEvents v).events = v := rfl

end setEvents

end Sys2Proof.Machine.State
end

