-- ==== Sys2Proof/Laws/Flags.lean ====
section
/-! SUPPORT. The comparator and the index tests as propositions on numbers (spec R132, R73). -/

namespace Sys2Proof

@[simp] theorem inData_iff {p : Int} : inData p = true ↔ 0 ≤ p ∧ p < 32 := by
  unfold inData
  rw [Bool.and_eq_true, decide_eq_true_iff, decide_eq_true_iff]
  rfl

@[simp] theorem atEnd_iff {p : Int} : atEnd p = true ↔ 32 ≤ p + 1 := decide_eq_true_iff

@[simp] theorem isStart_iff {c : Profile} {e : Nat} : isStart c e = true ↔ c.tStart ≤ e :=
  decide_eq_true_iff

@[simp] theorem isOne_iff {c : Profile} {e : Nat} : isOne c e = true ↔ c.tBit ≤ e :=
  decide_eq_true_iff

/-- The constraint of R7 as a proposition. -/
theorem Profile.wf_iff {c : Profile} :
    c.wf = true ↔ 0 < c.tBit ∧ c.tBit < c.tStart ∧ c.tStart ≤ c.ceil ∧ c.ceil ≤ 63 := by
  unfold Profile.wf
  rw [Bool.and_eq_true, Bool.and_eq_true, Bool.and_eq_true, decide_eq_true_iff, decide_eq_true_iff,
    decide_eq_true_iff, decide_eq_true_iff, and_assoc, and_assoc]
  rfl

@[simp] theorem hw_tBit : Config.hw.tBit = 2 := rfl
@[simp] theorem hw_tStart : Config.hw.tStart = 50 := rfl
@[simp] theorem hw_ceil : Config.hw.ceil = 50 := rfl
@[simp] theorem hw_simulOrder : Config.hw.simulOrder = .edgeFirst := rfl

/-- This hardware's profile is legal. -/
theorem hw_wf : Config.hw.wf = true := by decide

end Sys2Proof
end

