-- ==== Sys2Proof/Laws/Operands.lean ====
section
/-! SUPPORT. The bit addressing of ACC in its 32-bit view (spec 20_memory.md R51, R52) and PI as a
signed value (00_scope.md R11). -/

namespace Sys2Proof

namespace FourBytes

/-- Bit `i` of the 32-bit view lies in byte 3 − i / 8 (R9, R51). -/
theorem getLsbD_toWord (f : FourBytes) {i : Nat} (hi : i < 32) :
    f.toWord.getLsbD i = (f.get (3 - i / 8)).getLsbD (i % 8) := by
  have h : f.toWord.getLsbD i =
      (f.b0 ++ f.b1 ++ f.b2 ++ f.b3 : BitVec (8 + 8 + 8 + 8)).getLsbD i := rfl
  rw [h]
  simp only [BitVec.getLsbD_append]
  interval_cases i <;> simp [get]

@[simp] theorem ofWord_toWord (f : FourBytes) : ofWord f.toWord = f := by
  obtain ⟨b0, b1, b2, b3⟩ := f
  simp only [ofWord, mk.injEq]
  refine ⟨?_, ?_, ?_, ?_⟩ <;>
    (apply BitVec.eq_of_getLsbD_eq
     intro i hi
     rw [BitVec.getLsbD_extractLsb', getLsbD_toWord _ (by omega)]
     interval_cases i <;> simp [get])

theorem toWord_inj {f g : FourBytes} : f.toWord = g.toWord ↔ f = g :=
  ⟨fun h => by rw [← ofWord_toWord f, h, ofWord_toWord], fun h => by rw [h]⟩

@[simp] theorem toWord_ofWord (w : Word) : (ofWord w).toWord = w := by
  apply BitVec.eq_of_getLsbD_eq
  intro i hi
  rw [getLsbD_toWord _ hi]
  interval_cases i <;> simp [get, ofWord]

/-- Position p is bit 31 − p of the 32-bit view (R9, R52). -/
theorem bitAt_eq_toWord (f : FourBytes) {p : Nat} (hp : p < 32) :
    f.bitAt p = f.toWord.getLsbD (31 - p) := by
  rw [getLsbD_toWord _ (by omega)]
  interval_cases p <;> rfl

@[simp] theorem bitAt_zero (p : Nat) : zero.bitAt p = false := by
  unfold bitAt
  generalize byteIndex p = i
  rcases i with _ | _ | _ | _ | _ <;> simp [get, zero]

theorem get_set (f : FourBytes) {i j : Nat} (v : Byte) (hi : i < 4) :
    (f.set i v).get j = if j = i then v else f.get j := by
  interval_cases i <;> rcases j with _ | _ | _ | _ | _ <;> simp [get, set]

/-- A deposit sets its own position and keeps every other one (R125: "the write is an OR"). -/
theorem bitAt_setBit (f : FourBytes) {p q : Nat} (hp : p < 32) :
    (f.setBit p).bitAt q = (f.bitAt q || decide (q = p)) := by
  have hb : byteIndex p < 4 := by simp only [byteIndex, Nat.shiftRight_eq_div_pow]; omega
  simp only [bitAt, setBit, get_set _ _ hb]
  by_cases h : byteIndex q = byteIndex p
  · simp only [h, if_true]
    simp only [BitVec.getLsbD_or, BitVec.getLsbD_shiftLeft, BitVec.getLsbD_one]
    congr 1
    have hq8 : bitOffset q < 8 := by simp only [bitOffset]; omega
    have hand : ∀ n : Nat, n &&& 7 = n % 8 := fun n => Nat.and_two_pow_sub_one_eq_mod n 3
    simp only [byteIndex, bitOffset, Nat.shiftRight_eq_div_pow, hand] at h hq8 ⊢
    by_cases hqp : q = p
    · subst hqp; simp [hq8]
    · have : ¬ (7 - q % 8 = 7 - p % 8) := by omega
      rcases Nat.lt_or_gt_of_ne this with h2 | h2
      · simp [h2, hqp]
      · have h3 : 7 - q % 8 - (7 - p % 8) ≠ 0 := by omega
        simp [h3, hqp]
  · have hqp : q ≠ p := fun e => h (by rw [e])
    simp [h, hqp]

/-- The deposit in the 32-bit view: bit 31 − p (R9). -/
theorem toWord_setBit (f : FourBytes) {p : Nat} (hp : p < 32) :
    (f.setBit p).toWord = f.toWord ||| 1#32 <<< (31 - p) := by
  apply BitVec.eq_of_getLsbD_eq
  intro i hi
  have hq : 31 - i < 32 := by omega
  have hi' : 31 - (31 - i) = i := by omega
  have h := bitAt_setBit f (q := 31 - i) hp
  rw [bitAt_eq_toWord _ hq, bitAt_eq_toWord _ hq, hi'] at h
  rw [h, BitVec.getLsbD_or, BitVec.getLsbD_shiftLeft, BitVec.getLsbD_one]
  congr 1
  by_cases he : 31 - i = p
  · have hlt : ¬ i < 31 - p := by omega
    have h0 : i - (31 - p) = 0 := by omega
    simp [he, hlt, h0, hi]
  · rcases Nat.lt_or_ge i (31 - p) with h2 | h2
    · simp [h2, he]
    · have h3 : i - (31 - p) ≠ 0 := by omega
      simp [h3, he]

end FourBytes

namespace Machine.State

theorem piVal_range (s : State) : -128 ≤ s.piVal ∧ s.piVal < 128 := by
  have h1 := BitVec.le_toInt s.pi
  have h2 := BitVec.toInt_lt (x := s.pi)
  simp only [piVal]
  norm_num at h1 h2
  omega

theorem toInt_ofInt_of_range {v : Int} (h1 : -128 ≤ v) (h2 : v < 128) :
    (BitVec.ofInt 8 v).toInt = v := by
  rw [BitVec.toInt_ofInt, Int.bmod_def]
  norm_num
  split <;> omega

theorem piVal_setPiVal (s : State) {v : Int} (h1 : -128 ≤ v) (h2 : v < 128) :
    (s.setPiVal v).piVal = v := toInt_ofInt_of_range h1 h2

end Machine.State

end Sys2Proof
end

