-- ==== Sys2Proof/Laws/Ops.lean ====
section
/-! SUPPORT. One lemma per shared operation that says everything it does: as a record update where
it has one case, as the list of its cases where it has several. -/

namespace Sys2Proof

/-- Two appends of equal widths are equal when their parts are. -/
theorem append_eq_append {m n : Nat} {a a' : BitVec m} {b b' : BitVec n} :
    a ++ b = a' ++ b' ↔ a = a' ∧ b = b' := by
  constructor
  · intro h
    have h1 := congrArg (BitVec.extractLsb' n m) h
    have h2 := congrArg (BitVec.extractLsb' 0 n) h
    rw [BitVec.extractLsb'_append_eq_left, BitVec.extractLsb'_append_eq_left] at h1
    rw [BitVec.extractLsb'_append_eq_right, BitVec.extractLsb'_append_eq_right] at h2
    exact ⟨h1, h2⟩
  · rintro ⟨rfl, rfl⟩
    rfl

/-- A key is equal to a table entry's key when its three bytes are (R78). -/
theorem append_bytes_inj {a b c a' b' c' : Byte} :
    a ++ b ++ c = a' ++ b' ++ c' ↔ a = a' ∧ b = b' ∧ c = c' := by
  rw [append_eq_append, append_eq_append, and_assoc]

/-- The exact-match lookup as a chain of tests on the 24-bit key (R151). -/
theorem lookupKey_eq (b1 b2 b3 : Byte) :
    lookupKey b1 b2 b3 =
      if (b1 ++ b2 ++ b3 : BitVec 24) = 0xFF18E7 then some .up
      else if (b1 ++ b2 ++ b3 : BitVec 24) = 0xFF10EF then some .left
      else if (b1 ++ b2 ++ b3 : BitVec 24) = 0xFF5AA5 then some .right
      else if (b1 ++ b2 ++ b3 : BitVec 24) = 0xFF4AB5 then some .down
      else none := by
  have e1 : (0xFF18E7 : BitVec 24) = 0xFF#8 ++ 0x18#8 ++ 0xE7#8 := rfl
  have e2 : (0xFF10EF : BitVec 24) = 0xFF#8 ++ 0x10#8 ++ 0xEF#8 := rfl
  have e3 : (0xFF5AA5 : BitVec 24) = 0xFF#8 ++ 0x5A#8 ++ 0xA5#8 := rfl
  have e4 : (0xFF4AB5 : BitVec 24) = 0xFF#8 ++ 0x4A#8 ++ 0xB5#8 := rfl
  rw [e1, e2, e3, e4]
  simp only [append_bytes_inj, lookupKey, Config.cmdTable, List.find?]
  by_cases h1 : b1 = 0xFF#8 ∧ b2 = 0x18#8 ∧ b3 = 0xE7#8
  · obtain ⟨rfl, rfl, rfl⟩ := h1; decide
  by_cases h2 : b1 = 0xFF#8 ∧ b2 = 0x10#8 ∧ b3 = 0xEF#8
  · obtain ⟨rfl, rfl, rfl⟩ := h2; decide
  by_cases h3 : b1 = 0xFF#8 ∧ b2 = 0x5A#8 ∧ b3 = 0xA5#8
  · obtain ⟨rfl, rfl, rfl⟩ := h3; decide
  by_cases h4 : b1 = 0xFF#8 ∧ b2 = 0x4A#8 ∧ b3 = 0xB5#8
  · obtain ⟨rfl, rfl, rfl⟩ := h4; decide
  have ne : ∀ x y z : Byte, ¬ (b1 = x ∧ b2 = y ∧ b3 = z) →
      (x == b1 && y == b2 && z == b3) = false := by
    intro x y z h
    simp only [Bool.and_eq_false_iff, beq_eq_false_iff_ne]
    by_contra hc
    push Not at hc
    exact h ⟨hc.1.1.symm, hc.1.2.symm, hc.2.symm⟩
  simp only [h1, h2, h3, h4, if_false, BitVec.ofNat_eq_ofNat, ne _ _ _ h1, ne _ _ _ h2,
    ne _ _ _ h3, ne _ _ _ h4, Option.map_none]

namespace Machine

/-! The operations with one case. -/

theorem clearStrobes_eq (s : State) :
    clearStrobes s = { s with cmdValid := false, actValid := false } := rfl

theorem emit_eq (ev : Event) (s : State) :
    emit ev s = { s with events := s.events ++ [(s.stepNo, ev)] } := rfl

theorem latchLine_eq (s : State) : latchLine s = { s with irPrev := s.irIn } := rfl

theorem startFrame_eq (s : State) :
    startFrame s = { s with pi := BitVec.ofInt 8 (-2), acc := FourBytes.zero } := rfl

theorem advanceIndex_eq (s : State) :
    advanceIndex s = { s with pi := BitVec.ofInt 8 (s.piVal + 1) } := rfl

theorem requestAction_eq (a : Action) (s : State) :
    requestAction a s =
      { s with act := a.code, actValid := true, events := s.events ++ [(s.stepNo, .action a)] } :=
  rfl

theorem dropFrame_eq (s : State) : dropFrame s = { s with actValid := false } := rfl

theorem idleOp_eq (s : State) :
    idleOp s = { s with cmdValid := false, actValid := false, irPrev := s.irIn } := rfl

theorem tickOp_eq (c : Profile) (s : State) :
    tickOp c s = { s with
      cnt := tickedCount c s.cnt, cmdValid := false, actValid := false, irPrev := s.irIn } := rfl

theorem resetOp_eq (s : State) :
    resetOp s = { State.reset with
      irIn := s.irIn, inputs := s.inputs, stepNo := s.stepNo, events := s.events } := rfl

/-! The operations with several cases. -/

/-- One tick: CNT + 1 below the ceiling, CNT otherwise, for a ceiling that fits the register. -/
theorem tickedCount_toNat (c : Profile) (n : Count) (hc : c.ceil ≤ 63) :
    (tickedCount c n).toNat = if n.toNat < c.ceil then n.toNat + 1 else n.toNat := by
  unfold tickedCount
  split
  · rw [BitVec.toNat_ofNat]; omega
  · rfl

/-- A deposit writes ACC only: the bit at a data position, nothing elsewhere (R52). -/
theorem depositBit_eq (p : Int) (s : State) :
    depositBit p s = { s with acc := if inData p then s.acc.setBit p.toNat else s.acc } := by
  unfold depositBit
  split <;> rfl

/-- COMPLETE in one record update: the lookup writes ACT_VALID, and ACT and an Action on a match. -/
theorem completeFrame_eq (s : State) :
    completeFrame s =
      { s with
        cmd := s.acc, acc := FourBytes.zero, pi := 0, cmdValid := true,
        actValid := (lookupKey s.acc.b1 s.acc.b2 s.acc.b3).isSome,
        act := (match lookupKey s.acc.b1 s.acc.b2 s.acc.b3 with
          | some a => a.code
          | none => s.act),
        events := s.events ++ (s.stepNo, .dispatch s.acc.b0 s.acc.b1 s.acc.b2 s.acc.b3)
          :: ((lookupKey s.acc.b1 s.acc.b2 s.acc.b3).toList.map fun a => (s.stepNo, .action a)) } := by
  have hpi : BitVec.ofInt 8 Config.restIndex = 0#8 := by decide
  cases h : lookupKey s.acc.b1 s.acc.b2 s.acc.b3 <;>
    simp [completeFrame, lookupCmd, emit, State.setPiVal, State.setPi, State.setAcc, State.setCmd,
      State.setCmdValid, State.setEvents, requestAction, dropFrame, State.setAct, State.setActValid,
      h, hpi]

/-- The ACC that decode(e) leaves below a start marker, before a completion: the bit at p is set for
a ONE at a data position (R121, R125). -/
def depositedAcc (c : Profile) (e : Nat) (s : State) : FourBytes :=
  if inData s.piVal && isOne c e then s.acc.setBit s.piVal.toNat else s.acc

/-- decode(e) has three cases: the start marker (R122), an edge inside a frame (R123, R124, R125),
and an edge whose incremented index reaches 32 (R126, R127). -/
theorem decodeGap_cases (c : Profile) (e : Nat) (s : State) :
    (c.tStart ≤ e ∧ decodeGap c e s = startFrame s) ∨
    (e < c.tStart ∧ s.piVal + 1 < 32 ∧ decodeGap c e s =
      { s with pi := BitVec.ofInt 8 (s.piVal + 1), acc := depositedAcc c e s }) ∨
    (e < c.tStart ∧ 32 ≤ s.piVal + 1 ∧ decodeGap c e s =
      completeFrame { s with pi := BitVec.ofInt 8 (s.piVal + 1), acc := depositedAcc c e s }) := by
  have hdep : (if (inData s.piVal && isOne c e) = true then depositBit s.piVal (advanceIndex s)
      else advanceIndex s) =
      { s with pi := BitVec.ofInt 8 (s.piVal + 1), acc := depositedAcc c e s } := by
    unfold depositedAcc
    split
    · next h =>
      rw [depositBit_eq, if_pos (by simp_all)]; rfl
    · rfl
  by_cases hs : c.tStart ≤ e
  · exact .inl ⟨hs, if_pos (isStart_iff.2 hs)⟩
  · right
    have hs' : e < c.tStart := by omega
    by_cases hl : 32 ≤ s.piVal + 1
    · refine .inr ⟨hs', hl, ?_⟩
      have : atEnd s.piVal = true := atEnd_iff.2 hl
      simp only [decodeGap, isStart_iff, hs, if_false, this, if_true]
      rw [hdep]
    · refine .inl ⟨hs', by omega, ?_⟩
      have : atEnd s.piVal = false :=
        decide_eq_false (show ¬ (32 : Int) ≤ s.piVal + 1 by omega)
      simp only [decodeGap, isStart_iff, hs, Bool.false_eq_true, if_false, this]
      rw [hdep]

/-- No bit is deposited for a ZERO or outside the data positions (R123, R124, R127). -/
theorem depositedAcc_none {c : Profile} {e : Nat} {s : State}
    (h : e < c.tBit ∨ s.piVal < 0 ∨ 32 ≤ s.piVal) : depositedAcc c e s = s.acc := by
  unfold depositedAcc
  rw [if_neg]
  rw [Bool.and_eq_true, inData_iff, isOne_iff]
  omega

/-- A ONE at a data position deposits its bit (R125). -/
theorem depositedAcc_one {c : Profile} {e : Nat} {s : State}
    (h : c.tBit ≤ e) (h1 : 0 ≤ s.piVal) (h2 : s.piVal < 32) :
    depositedAcc c e s = s.acc.setBit s.piVal.toNat := by
  unfold depositedAcc
  rw [if_pos]
  rw [Bool.and_eq_true, inData_iff, isOne_iff]
  exact ⟨⟨h1, h2⟩, h⟩

/-- decode(e) neither reads nor writes CNT and IR_PREV, and keeps the model's own fields other than
the events (R107). -/
theorem decodeGap_setCnt (c : Profile) (e : Nat) (s : State) (v : Count) :
    decodeGap c e (s.setCnt v) = (decodeGap c e s).setCnt v := by
  rcases decodeGap_cases c e s with ⟨h, hd⟩ | ⟨h, h2, hd⟩ | ⟨h, h2, hd⟩ <;>
  rcases decodeGap_cases c e (s.setCnt v) with ⟨k, kd⟩ | ⟨k, k2, kd⟩ | ⟨k, k2, kd⟩ <;>
  first
  | (rw [hd, kd]; rfl)
  | (rw [hd, kd, completeFrame_eq, completeFrame_eq]; rfl)
  | (exfalso; simp only [State.piVal, State.setCnt_pi] at *; omega)

end Machine

end Sys2Proof
end

