-- ==== Sys2Proof/Laws/Decode.lean ====
section
/-! SUPPORT. The decoders as chains of tests: on the three bits of an event word, on the 24-bit key of
a command word; and a command word's parts (spec 30_encoding.md R71, R78, R79). -/

namespace Sys2Proof

/-- `rst` set: RESET, with the other two bits carried (R71). -/
theorem decodeEv_reset (w : EventWord) (h : w.getLsbD 2 = true) :
    decodeEv w = .reset (w.getLsbD 1) (w.getLsbD 0) := by
  revert w; decide

/-- No reset and no edge: TICK or IDLE. -/
theorem decodeEv_quiet (w : EventWord) (h : w.getLsbD 2 = false) (h1 : w.getLsbD 1 = false) :
    decodeEv w = if w.getLsbD 0 then .tick else .idle := by
  revert w; decide

/-- An edge without reset: EDGT or EDGE. -/
theorem decodeEv_edge (w : EventWord) (h : w.getLsbD 2 = false) (h1 : w.getLsbD 1 = true) :
    decodeEv w = if w.getLsbD 0 then .edgt else .edge := by
  revert w; decide

/-- Bytes 1 to 3 of a command word are its low 24 bits (R9, R51). -/
theorem keyBytes_eq (w : Word) :
    (w.extractLsb' 16 8 ++ w.extractLsb' 8 8 ++ w.extractLsb' 0 8 : BitVec 24) = w.truncate 24 := by
  apply BitVec.eq_of_getLsbD_eq
  intro i hi
  have e : (w.extractLsb' 16 8 ++ w.extractLsb' 8 8 ++ w.extractLsb' 0 8 : BitVec 24).getLsbD i
      = (w.extractLsb' 16 8 ++ w.extractLsb' 8 8 ++ w.extractLsb' 0 8 : BitVec (8 + 8 + 8)).getLsbD i :=
    rfl
  rw [e]
  simp only [BitVec.getLsbD_append]
  interval_cases i <;> simp

/-- The mask 0x00FFFFFF of the four table rows tests the low 24 bits (R78). -/
theorem keyMask_iff (w : Word) (k : BitVec 24) :
    w &&& 0x00FFFFFF = k.setWidth 32 ↔ w.truncate 24 = k := by
  constructor
  · intro h
    have := congrArg (BitVec.setWidth 24) h
    rw [BitVec.setWidth_setWidth_of_le _ (by decide), BitVec.setWidth_eq] at this
    rw [← this]
    apply BitVec.eq_of_getLsbD_eq
    intro i hi
    have : (0xFFFFFF#24).getLsbD i = true := by interval_cases i <;> rfl
    simp [this]
  · rintro rfl
    apply BitVec.eq_of_getLsbD_eq
    intro i hi
    simp only [BitVec.getLsbD_and, BitVec.getLsbD_setWidth, hi, decide_true, Bool.true_and]
    interval_cases i <;> simp

/-- The command decoder as a chain of tests on the low 24 bits (R78, R79). -/
theorem decodeCmd_eq (w : Word) : decodeCmd w =
    if w.truncate 24 = 0xFF18E7#24 then .actUp (w.extractLsb' 24 8)
    else if w.truncate 24 = 0xFF10EF#24 then .actLeft (w.extractLsb' 24 8)
    else if w.truncate 24 = 0xFF5AA5#24 then .actRight (w.extractLsb' 24 8)
    else if w.truncate 24 = 0xFF4AB5#24 then .actDown (w.extractLsb' 24 8)
    else .noMatch w := by
  unfold decodeCmd
  rw [lookupKey_eq, keyBytes_eq]
  repeat' (split <;> try rfl)
  all_goals simp_all

/-- A NO_MATCH word is well-formed when its key is in none of the four entries (R79). -/
theorem wf_noMatch_iff (w : Word) : (Instr.noMatch w).wf = true ↔
    w.truncate 24 ≠ 0xFF18E7#24 ∧ w.truncate 24 ≠ 0xFF10EF#24 ∧
    w.truncate 24 ≠ 0xFF5AA5#24 ∧ w.truncate 24 ≠ 0xFF4AB5#24 := by
  have a : ∀ k : BitVec 24, (!(k == w.truncate 24)) = true ↔ w.truncate 24 ≠ k := by
    intro k
    rw [Bool.not_eq_true', beq_eq_false_iff_ne]
    exact ne_comm
  have e : (Instr.noMatch w).wf = ((!(0xFF18E7#24 == w.truncate 24)) &&
      ((!(0xFF10EF#24 == w.truncate 24)) && ((!(0xFF5AA5#24 == w.truncate 24)) &&
      ((!(0xFF4AB5#24 == w.truncate 24)) && true)))) := rfl
  rw [e, Bool.and_true, Bool.and_eq_true, Bool.and_eq_true, Bool.and_eq_true]
  exact and_congr (a _) (and_congr (a _) (and_congr (a _) (a _)))

/-- The key of a word made of byte 0 and a key. -/
theorem truncate_append_key (b : Byte) (k : BitVec 24) : (b ++ k : BitVec 32).truncate 24 = k :=
  BitVec.setWidth_append_eq_right

/-- Byte 0 of a word made of byte 0 and a key. -/
theorem byte0_append_key (b : Byte) (k : BitVec 24) : (b ++ k : BitVec 32).extractLsb' 24 8 = b :=
  BitVec.extractLsb'_append_eq_left

end Sys2Proof
end

