-- ==== Sys2Proof/Laws/PerInstr.lean ====
section
/-! SUPPORT. Families of statements about each instruction as syntax. EncodesItsRow: the word of a
well-formed instruction lies in its own row of the opcode table, by the row's match and mask, written
out here from the table; for NO_MATCH, the default row, it lies in none of the four others. -/

namespace Sys2Proof.Laws.EncodesItsRow

def Statement (i : Instr) : Prop :=
  i.wf = true → match i, encode i with
  | .idle, .ev w => w &&& 0x7 = 0x0
  | .tick, .ev w => w &&& 0x7 = 0x1
  | .edge, .ev w => w &&& 0x7 = 0x2
  | .edgt, .ev w => w &&& 0x7 = 0x3
  | .reset _ _, .ev w => w &&& 0x4 = 0x4
  | .resync _ _ _, .cond w => w &&& 0x8 = 0x8
  | .header _, .cond w => w &&& 0xB = 0x0
  | .bit0 _, .cond w => w &&& 0xE = 0x2
  | .bit1 _, .cond w => w &&& 0xE = 0x6
  | .complete _ _, .cond w => w &&& 0x9 = 0x1
  | .actUp _, .cmd w => w &&& 0x00FFFFFF = 0x00FF18E7
  | .actLeft _, .cmd w => w &&& 0x00FFFFFF = 0x00FF10EF
  | .actRight _, .cmd w => w &&& 0x00FFFFFF = 0x00FF5AA5
  | .actDown _, .cmd w => w &&& 0x00FFFFFF = 0x00FF4AB5
  | .noMatch _, .cmd w =>
    ¬ (w &&& 0x00FFFFFF = 0x00FF18E7) ∧ ¬ (w &&& 0x00FFFFFF = 0x00FF10EF) ∧
    ¬ (w &&& 0x00FFFFFF = 0x00FF5AA5) ∧ ¬ (w &&& 0x00FFFFFF = 0x00FF4AB5)
  | _, _ => False

theorem idle : Statement .idle := fun _ => rfl
theorem tick : Statement .tick := fun _ => rfl
theorem edge : Statement .edge := fun _ => rfl
theorem edgt : Statement .edgt := fun _ => rfl

theorem reset (e t : Bool) : Statement (.reset e t) := by
  intro _
  cases e <;> cases t <;> rfl

theorem resync (o r l : Bool) : Statement (.resync o r l) := by
  intro _
  cases o <;> cases r <;> cases l <;> rfl

theorem header (o : Bool) : Statement (.header o) := by
  intro _
  cases o <;> rfl

theorem bit0 (l : Bool) : Statement (.bit0 l) := by
  intro _
  cases l <;> rfl

theorem bit1 (l : Bool) : Statement (.bit1 l) := by
  intro _
  cases l <;> rfl

theorem complete (o r : Bool) : Statement (.complete o r) := by
  intro _
  cases o <;> cases r <;> rfl

theorem actUp (b : Byte) : Statement (.actUp b) := fun _ =>
  (keyMask_iff (b ++ 0xFF18E7#24) 0xFF18E7#24).2 (truncate_append_key _ _)

theorem actLeft (b : Byte) : Statement (.actLeft b) := fun _ =>
  (keyMask_iff (b ++ 0xFF10EF#24) 0xFF10EF#24).2 (truncate_append_key _ _)

theorem actRight (b : Byte) : Statement (.actRight b) := fun _ =>
  (keyMask_iff (b ++ 0xFF5AA5#24) 0xFF5AA5#24).2 (truncate_append_key _ _)

theorem actDown (b : Byte) : Statement (.actDown b) := fun _ =>
  (keyMask_iff (b ++ 0xFF4AB5#24) 0xFF4AB5#24).2 (truncate_append_key _ _)

theorem noMatch (w : Word) : Statement (.noMatch w) := fun h =>
  have k := (wf_noMatch_iff w).1 h
  ⟨fun e => k.1 ((keyMask_iff w 0xFF18E7#24).1 e),
   fun e => k.2.1 ((keyMask_iff w 0xFF10EF#24).1 e),
   fun e => k.2.2.1 ((keyMask_iff w 0xFF5AA5#24).1 e),
   fun e => k.2.2.2 ((keyMask_iff w 0xFF4AB5#24).1 e)⟩

end Sys2Proof.Laws.EncodesItsRow
end

