-- ==== Sys2Proof/Laws/Step.lean ====
section
/-! SUPPORT. What an operation keeps, what a step can do, and sequences of operations: the lemmas a
proof about a run cites in place of the definitions. -/

namespace Sys2Proof.Machine

/-- Every operation has a next state (R174). -/
theorem exec_next (i : Instr) (s : State) : ∃ t, exec i s = .next t := by
  cases i <;> exact ⟨_, rfl⟩

/-- decode(e) keeps CNT, IR_PREV and the model's own fields other than the events (R107, R120). -/
theorem decodeGap_keeps (c : Profile) (e : Nat) (s : State) :
    (decodeGap c e s).cnt = s.cnt ∧ (decodeGap c e s).irPrev = s.irPrev ∧
    (decodeGap c e s).irIn = s.irIn ∧ (decodeGap c e s).inputs = s.inputs ∧
    (decodeGap c e s).stepNo = s.stepNo := by
  rcases decodeGap_cases c e s with ⟨h, hd⟩ | ⟨h, h2, hd⟩ | ⟨h, h2, hd⟩ <;> rw [hd]
  · exact ⟨rfl, rfl, rfl, rfl, rfl⟩
  · exact ⟨rfl, rfl, rfl, rfl, rfl⟩
  · rw [completeFrame_eq]
    exact ⟨rfl, rfl, rfl, rfl, rfl⟩

/-- No operation touches the input stream, the line level of the step or the step number. -/
theorem exec_keeps (i : Instr) (s t : State) (h : exec i s = .next t) :
    t.irIn = s.irIn ∧ t.inputs = s.inputs ∧ t.stepNo = s.stepNo := by
  have key : ∀ u, exec i s = .next u → u = t := by
    intro u hu
    rw [h] at hu
    cases hu
    rfl
  cases i with
  | edge =>
    obtain rfl := key _ rfl
    exact (decodeGap_keeps Config.hw s.cnt.toNat ((clearStrobes s).setCnt 0)).2.2
  | edgt =>
    obtain rfl := key _ rfl
    exact (decodeGap_keeps Config.hw s.cnt.toNat (clearStrobes s)).2.2
  | complete o r =>
    obtain rfl := key _ rfl
    rw [completeFrame_eq]
    exact ⟨rfl, rfl, rfl⟩
  | bit1 l =>
    obtain rfl := key _ rfl
    rw [depositBit_eq]
    exact ⟨rfl, rfl, rfl⟩
  | _ =>
    obtain rfl := key _ rfl
    exact ⟨rfl, rfl, rfl⟩

/-- A step ends where the operation of its event word ends, numbered on. -/
theorem step_of_exec {s t : State} (h : exec (decodeEv s.eventWord) s.present = .next t) :
    step s = .next t.nextStep := by
  unfold step
  rw [h]
  rfl

theorem exec_of_step {s t : State} (h : step s = .next t) :
    ∃ u, exec (decodeEv s.eventWord) s.present = .next u ∧ t = u.nextStep := by
  obtain ⟨u, hu⟩ := exec_next (decodeEv s.eventWord) s.present
  refine ⟨u, hu, ?_⟩
  rw [step_of_exec hu] at h
  cases h
  rfl

/-- What a step can do: RESET; IDLE or TICK; or an edge, which decodes the gap held in CNT and leaves
CNT at 0 (EDGE) or 1 (EDGT, edge_first) (R71, R100, R120, R131, R175, R176). -/
theorem step_cases {s t : State} (h : step s = .next t) :
    (s.eventWord.getLsbD 2 = true ∧ t = (resetOp s.present).nextStep) ∨
    (s.eventWord.getLsbD 2 = false ∧ s.eventWord.getLsbD 1 = false ∧
      (t = (idleOp s.present).nextStep ∨ t = (tickOp Config.hw s.present).nextStep)) ∨
    (s.eventWord.getLsbD 2 = false ∧ s.eventWord.getLsbD 1 = true ∧
      ∃ v : Count, v.toNat ≤ 1 ∧ t = (latchLine
        ((decodeGap Config.hw s.cnt.toNat (clearStrobes s.present)).setCnt v)).nextStep) := by
  obtain ⟨u, hu, rfl⟩ := exec_of_step h
  cases h2 : s.eventWord.getLsbD 2
  · right
    cases h1 : s.eventWord.getLsbD 1
    · left
      refine ⟨rfl, rfl, ?_⟩
      rw [decodeEv_quiet _ h2 h1] at hu
      split at hu
      · right; cases hu; rfl
      · left; cases hu; rfl
    · right
      refine ⟨rfl, rfl, ?_⟩
      rw [decodeEv_edge _ h2 h1] at hu
      split at hu
      · cases hu
        exact ⟨1, by decide, rfl⟩
      · cases hu
        refine ⟨0, by decide, ?_⟩
        unfold edgeOp
        rw [decodeGap_setCnt]
        rfl
  · left
    refine ⟨rfl, ?_⟩
    rw [decodeEv_reset _ h2] at hu
    cases hu
    rfl

/-! Sequences of operations. -/

theorem execSeq_cons {i : Instr} {s t : State} (is : List Instr) (h : exec i s = .next t) :
    execSeq (i :: is) s = execSeq is t := by
  simp only [execSeq, h]

theorem execSeq_append (is js : List Instr) (s : State) :
    execSeq (is ++ js) s = match execSeq is s with
      | .next t => execSeq js t
      | .fault r => .fault r
      | .refused r => .refused r := by
  induction is generalizing s with
  | nil => rfl
  | cons i is ih =>
    obtain ⟨t, ht⟩ := exec_next i s
    simp only [List.cons_append, execSeq, ht, ih]

theorem execSeq_next (is : List Instr) (s : State) : ∃ t, execSeq is s = .next t := by
  induction is generalizing s with
  | nil => exact ⟨s, rfl⟩
  | cons i is ih =>
    obtain ⟨t, ht⟩ := exec_next i s
    rw [execSeq_cons _ ht]
    exact ih t

/-! Rows of gaps, from the last gap on: what one more edge adds (R104). -/

theorem gapSamples_append_singleton (gs : List Gap) (g : Gap) (c : Nat) :
    gapSamples c (gs ++ [g]) = gapSamples c gs ++ [countAfter c gs + g.ticks] := by
  induction gs generalizing c with
  | nil => rfl
  | cons h gs ih => simp [gapSamples, countAfter, ih]

@[simp] theorem countAfter_append_singleton (gs : List Gap) (g : Gap) (c : Nat) :
    countAfter c (gs ++ [g]) = g.left := by
  induction gs generalizing c with
  | nil => rfl
  | cons h gs ih => simp [countAfter, ih]

@[simp] theorem gapSamples_length (gs : List Gap) (c : Nat) :
    (gapSamples c gs).length = gs.length := by
  induction gs generalizing c with
  | nil => rfl
  | cons h gs ih => simp [gapSamples, ih]

end Sys2Proof.Machine
end

