-- ==== Sys2Proof/Tests/Slice0.lean ====
section
/-! SUPPORT. The model's own tests: the checks of WellFormed, one word of every row written out from
the spec's encoding, one or two single steps per operation with the results of spec
95_test_vectors.md (V<n>), and for every statement with hypotheses a state and operands that meet
them all (witness_…), at the ends of the ranges where it has clauses. -/

namespace Sys2Proof.Tests

open Sys2Proof.Machine

/-- A state as 95_test_vectors.md writes it (CNT PI ACC CMD CV AV ACT), at the event level: the line
is high, nothing is listed, nothing was emitted. -/
def st (cnt : Nat) (pi : Int) (acc cmd : Word) (cv av : Bool) (act : Nat) : State :=
  { State.reset with
    cnt := BitVec.ofNat 6 cnt, pi := BitVec.ofInt 8 pi, acc := FourBytes.ofWord acc,
    cmd := FourBytes.ofWord cmd, cmdValid := cv, actValid := av, act := BitVec.ofNat 2 act }

/-- A state with only CNT, PI and ACC set. -/
def st3 (cnt : Nat) (pi : Int) (acc : Word) : State := st cnt pi acc 0 false false 0

/-- The events of a step with number 0. -/
def ev0 (s : State) (es : List Event) : State := { s with events := es.map fun e => (0, e) }

/-! ### WellFormed: an ill-formed term for each check, refused -/

theorem test_wf_refuses_noMatch_up : (Instr.noMatch 0x00FF18E7).wf = false := by decide
theorem test_wf_refuses_noMatch_left : (Instr.noMatch 0xA5FF10EF).wf = false := by decide
theorem test_wf_refuses_noMatch_right : (Instr.noMatch 0xFFFF5AA5).wf = false := by decide
theorem test_wf_refuses_noMatch_down : (Instr.noMatch 0x12FF4AB5).wf = false := by decide
theorem test_wf_accepts_noMatch : (Instr.noMatch 0x00FF38C7).wf = true := by decide
theorem test_build_refuses_zero_tBit : Profile.build 0 50 50 .edgeFirst = none := by decide
theorem test_build_refuses_tBit_tStart : Profile.build 50 50 50 .edgeFirst = none := by decide
theorem test_build_refuses_low_ceil : Profile.build 2 50 49 .edgeFirst = none := by decide
theorem test_build_refuses_wide_ceil : Profile.build 2 50 64 .edgeFirst = none := by decide
theorem test_build_accepts_63 : (Profile.build 2 50 63 .tickFirst).isSome = true := by decide
theorem test_keys_distinct : Config.keysDistinct = true := by decide

/-! ### Decode: words written out from R71, R73 and R78 -/

theorem test_decode_idle : decodeTableWord 3 0b000 = some .idle := by decide
theorem test_decode_tick : decodeTableWord 3 0b001 = some .tick := by decide
theorem test_decode_edge : decodeTableWord 3 0b010 = some .edge := by decide
theorem test_decode_edgt : decodeTableWord 3 0b011 = some .edgt := by decide
theorem test_decode_reset : decodeTableWord 3 0b101 = some (.reset false true) := by decide
theorem test_decode_resync : decodeTableWord 4 0b1100 = some (.resync true false false) := by decide
theorem test_decode_header : decodeTableWord 4 0b0100 = some (.header true) := by decide
theorem test_decode_bit0 : decodeTableWord 4 0b0010 = some (.bit0 false) := by decide
theorem test_decode_bit1 : decodeTableWord 4 0b0110 = some (.bit1 false) := by decide
theorem test_decode_bit1_complete : decode (.cond 0b0111) = [.bit1 true, .complete true true] := by
  decide
theorem test_decode_complete : decodeTableWord 4 0b0001 = some (.complete false false) := by decide
theorem test_decode_actUp : decodeTableWord 32 0x00FF18E7 = some (.actUp 0x00) := by decide
theorem test_decode_actLeft : decodeTableWord 32 0x5CFF10EF = some (.actLeft 0x5C) := by decide
theorem test_decode_actRight : decodeTableWord 32 0x00FF5AA5 = some (.actRight 0x00) := by decide
theorem test_decode_actDown : decodeTableWord 32 0x12FF4AB5 = some (.actDown 0x12) := by decide
theorem test_decode_noMatch : decodeTableWord 32 0x00FE18E7 = some (.noMatch 0x00FE18E7) := by decide
theorem test_decode_stray_bits : decodeTableWord 8 0x12 = none := by decide
theorem test_decode_length : codeOf 5 0 = .error .noSuchLength := by decide
/-- The bytes in the order of reception: byte 0 first (R51). -/
theorem test_decode_bytes : decodeBytes [0x5C, 0xFF, 0x18, 0xE7] = .ok (.actUp 0x5C) := by decide

/-! ### One step each -/

/-- V50. -/
theorem test_idle : next? (exec .idle (st 7 12 0xff100000 0x00ff18e7 true true 0))
    = some (st 7 12 0xff100000 0x00ff18e7 false false 0) := by decide
/-- V13. -/
theorem test_tick_reaches_ceiling : next? (exec .tick (st3 49 7 0xa5000000))
    = some (st3 50 7 0xa5000000) := by decide
/-- V14. -/
theorem test_tick_saturates : next? (exec .tick (st3 50 7 0xa5000000))
    = some (st3 50 7 0xa5000000) := by decide
/-- V34: the last bit is stored before the snapshot. -/
theorem test_edge_completes : next? (exec .edge (st3 2 31 0x00ff10ee))
    = some (ev0 (st 0 0 0 0x00ff10ef true true 1)
        [.dispatch 0x00 0xff 0x10 0xef, .action .left]) := by decide
/-- V37: RESYNC wins over completion. -/
theorem test_edge_resync_wins : next? (exec .edge (st3 50 31 0x00ff10ee))
    = some (st3 0 (-2) 0) := by decide
/-- V26, edge_first. -/
theorem test_edgt_edge_first : next? (exec .edgt (st3 1 5 0)) = some (st3 1 6 0) := by decide
/-- V29, tick_first: the tick makes the last gap a ONE. -/
theorem test_edgt_tick_first :
    edgtOp { Config.hw with simulOrder := .tickFirst } (st3 1 31 0x00ff18e6)
      = ev0 (st 0 0 0 0x00ff18e7 true true 0)
          [.dispatch 0x00 0xff 0x18 0xe7, .action .up] := by decide
/-- V51: RESET with the edge and tick bits set. -/
theorem test_reset : next? (exec (.reset true true) (st 7 12 0xff100000 0x00ff18e7 true true 3))
    = some State.reset := by decide
/-- R122's example: PI = 17, ACC = 00 FF 80 00. -/
theorem test_resync : next? (exec (.resync true true false) (st3 0 17 0x00ff8000))
    = some (st3 0 (-2) 0) := by decide
/-- R123's example: PI = −2 gives −1. -/
theorem test_header : next? (exec (.header true) (st3 0 (-2) 0)) = some (st3 0 (-1) 0) := by decide
/-- R124's example: PI = 3 gives 4, ACC unchanged. -/
theorem test_bit0 : next? (exec (.bit0 false) (st3 0 3 0xa0000000))
    = some (st3 0 4 0xa0000000) := by decide
/-- V39: BIT1 at position 10 sets byte 1, mask 0x20. -/
theorem test_bit1_10 : next? (exec (.bit1 false) (st3 0 10 0xff000000))
    = some (st3 0 11 0xff200000) := by decide
/-- V32: BIT1 at position 24. -/
theorem test_bit1_24 : next? (exec (.bit1 false) (st3 0 24 0)) = some (st3 0 25 0x80) := by decide
/-- V35: no match, ACT keeps its value. -/
theorem test_complete_no_match : next? (exec (.complete false true) (st 0 32 0x00ff10ee 0 false false 3))
    = some (ev0 (st 0 0 0 0x00ff10ee true false 3) [.dispatch 0x00 0xff 0x10 0xee]) := by decide
/-- V39b: COMPLETE alone at PI = 100. -/
theorem test_complete_unreachable : next? (exec .edge (st3 1 100 0x00ff5aa5))
    = some (ev0 (st 0 0 0 0x00ff5aa5 true true 2)
        [.dispatch 0x00 0xff 0x5a 0xa5, .action .right]) := by decide
/-- R78: the ACT codes in the table's order. -/
theorem test_actUp : next? (exec (.actUp 0) (st 0 0 0 0 true false 3))
    = some (ev0 (st 0 0 0 0 true true 0) [.action .up]) := by decide
theorem test_actLeft : next? (exec (.actLeft 0) (st 0 0 0 0 true false 3))
    = some (ev0 (st 0 0 0 0 true true 1) [.action .left]) := by decide
theorem test_actRight : next? (exec (.actRight 0) (st 0 0 0 0 true false 3))
    = some (ev0 (st 0 0 0 0 true true 2) [.action .right]) := by decide
theorem test_actDown : next? (exec (.actDown 0) (st 0 0 0 0 true false 0))
    = some (ev0 (st 0 0 0 0 true true 3) [.action .down]) := by decide
theorem test_noMatch : next? (exec (.noMatch 0x00FF38C7) (st 0 0 0 0x00ff38c7 true false 3))
    = some (st 0 0 0 0x00ff38c7 true false 3) := by decide

/-- V57, the second step, on pins: a falling line and a tick are an EDGT. -/
theorem test_pins_edgt :
    next? (step { st3 1 2 0 with inputs := [.pins false true false] })
      = some { st3 1 3 0 with irPrev := false, irIn := false, stepNo := 1 } := by decide
/-- V59, on pins: RESET beats a simultaneous falling edge and tick, and IR_PREV is 1. -/
theorem test_pins_reset :
    next? (step { st3 9 4 0xf0000000 with inputs := [.pins true true false] })
      = some { State.reset with irIn := false, stepNo := 1 } := by decide
/-- V55, the third step, on pins: a line that stays low is no second edge. -/
theorem test_pins_low :
    next? (step { st3 0 1 0x80000000 with irPrev := false, inputs := [.pins false false false] })
      = some { st3 0 1 0x80000000 with irPrev := false, irIn := false, stepNo := 1 } := by decide
/-- R51: the output port, byte 0 in bits 31:24. -/
theorem test_cmd_port : (st 0 0 0 0x00ff5aa5 true true 2).cmdPort = 0x00ff5aa5 := by decide
/-- Log entry 6: a placed command word is the CMD of the next step. -/
theorem test_placed_command :
    (next? (step (State.reset.withFetchWord 32 0x5CFF18E7))).map (·.cmdPort) = some 0x5CFF18E7 := by
  decide

/-! ### Witnesses: the hypotheses of each statement can be met -/

theorem witness_EdgeWithLongGapResyncs : 50 ≤ (st3 50 31 0x00ff10ee).cnt.toNat := by decide

theorem witness_EdgeInHeaderIsDiscarded :
    (st3 49 (-1) 0).cnt.toNat < 50 ∧ (st3 49 (-1) 0).pi.toInt < 0 := by decide

theorem witness_EdgeLogicZero :
    ((st3 1 0 0).cnt.toNat < 2 ∧ 0 ≤ (st3 1 0 0).pi.toInt ∧ (st3 1 0 0).pi.toInt < 31) ∧
    ((st3 1 30 0).cnt.toNat < 2 ∧ 0 ≤ (st3 1 30 0).pi.toInt ∧ (st3 1 30 0).pi.toInt < 31) ∧
    ((st3 1 31 0).cnt.toNat < 2 ∧ (st3 1 31 0).pi.toInt < 32 ∧ (st3 1 31 0).pi.toInt = 31) := by
  decide

theorem witness_EdgeLogicOne :
    (2 ≤ (st3 2 0 0).cnt.toNat ∧ (st3 2 0 0).cnt.toNat < 50 ∧ (st3 2 0 0).pi.toInt = 0 ∧
      (⟨0x80, 0, 0, 0⟩ : FourBytes).toWord = (st3 2 0 0).acc.toWord ||| 1#32 <<< 31) ∧
    (2 ≤ (st3 49 31 0).cnt.toNat ∧ (st3 49 31 0).cnt.toNat < 50 ∧ (st3 49 31 0).pi.toInt = 31 ∧
      (⟨0, 0, 0, 1⟩ : FourBytes).toWord = (st3 49 31 0).acc.toWord ||| 1#32 <<< 0) := by
  decide

theorem witness_EdgeOutsideIndexRange :
    ((st3 49 32 0).cnt.toNat < 50 ∧ 32 ≤ (st3 49 32 0).pi.toInt) ∧
    ((st3 0 127 0).cnt.toNat < 50 ∧ 32 ≤ (st3 0 127 0).pi.toInt) ∧
    ((st3 49 (-3) 0).cnt.toNat < 50 ∧ (st3 49 (-3) 0).pi.toInt < -2) ∧
    ((st3 0 (-128) 0).cnt.toNat < 50 ∧ (st3 0 (-128) 0).pi.toInt < -2) ∧
    50 ≤ (st3 50 32 0).cnt.toNat := by decide

theorem witness_SubOperationSetsBit :
    ((⟨0, 0, 0, 1⟩ : FourBytes).toWord = if 0 ≤ (st3 0 31 0).pi.toInt ∧ (st3 0 31 0).pi.toInt < 32
      then (st3 0 31 0).acc.toWord ||| 1#32 <<< (31 - (st3 0 31 0).pi.toInt.toNat)
      else (st3 0 31 0).acc.toWord) ∧
    ((⟨0, 0, 0, 0⟩ : FourBytes).toWord = if 0 ≤ (st3 0 32 0).pi.toInt ∧ (st3 0 32 0).pi.toInt < 32
      then (st3 0 32 0).acc.toWord ||| 1#32 <<< (31 - (st3 0 32 0).pi.toInt.toNat)
      else (st3 0 32 0).acc.toWord) := by decide

theorem witness_EdgtTakesOneOfTwoOrders :
    (Config.hw.wf = true ∧ Config.hw.simulOrder = .edgeFirst) ∧
    ((⟨2, 50, 63, .tickFirst⟩ : Profile).wf = true ∧
      (st3 62 0 0).cnt.toNat < (⟨2, 50, 63, .tickFirst⟩ : Profile).ceil ∧
      (⟨2, 50, 63, .tickFirst⟩ : Profile).ceil ≤ (st3 63 0 0).cnt.toNat) := by decide

theorem witness_ResyncIgnoresPriorState :
    (Config.hw.wf = true ∧ Config.hw.tStart ≤ (st3 50 17 0x00ff8000).cnt.toNat) ∧
    ((⟨1, 2, 2, .tickFirst⟩ : Profile).wf = true ∧
      (⟨1, 2, 2, .tickFirst⟩ : Profile).tStart ≤ (st3 2 (-128) 1).cnt.toNat) ∧
    ((⟨2, 50, 50, .tickFirst⟩ : Profile).wf = true ∧
      (⟨2, 50, 50, .tickFirst⟩ : Profile).tStart = (st3 49 5 1).cnt.toNat + 1) := by decide

theorem witness_DecodeAndEncodeAgree :
    (Instr.noMatch 0x00FF38C7).wf = true ∧ (Instr.complete true true).wf = true ∧
    Instr.complete true true ∈ decode (.cond 0b0111) := by decide

theorem witness_DepositAddressesOneBit :
    (0 < 32 ∧ (⟨0, 0, 0, 0⟩ : FourBytes).setBit 0 = ⟨0x80, 0, 0, 0⟩) ∧
    (31 < 32 ∧ (⟨0, 0, 0, 0⟩ : FourBytes).setBit 31 = ⟨0, 0, 0, 1⟩) := by decide

theorem witness_StepRunsDecodedOperation :
    ({ State.reset with inputs := [.pins false true false] } : State).inputs
      = .pins false true false :: [] ∧
    ({ State.reset with inputs := [.event 0b010] } : State).inputs = .event 0b010 :: [] ∧
    State.reset.inputs = [] := by decide

theorem witness_ResetDominatesEdgeAndTick :
    ({ st3 9 4 1 with inputs := [.event 0b111] } : State).eventWord.getLsbD 2 = true := by decide

theorem witness_EdgeDetectorFollowsLine :
    ({ State.reset with inputs := [.pins true false false] } : State).inputs
      = .pins true false false :: [] := by decide

theorem witness_NoTwoPinEdgesInARow : ∃ t : State,
    step { State.reset with inputs := [.pins false false false, .pins false false false] } = .next t ∧
    ({ State.reset with inputs := [.pins false false false, .pins false false false] } : State
      ).eventWord.getLsbD 1 = true := ⟨_, rfl, by decide⟩

theorem witness_StepKeepsInvariant : ∃ t : State,
    ({ st3 49 31 0xfffffffe with inputs := [.event 0b010] } : State).Inv Config.hw ∧
    step { st3 49 31 0xfffffffe with inputs := [.event 0b010] } = .next t :=
  ⟨_, by decide, rfl⟩

theorem witness_EveryLegalProfileKeepsInvariant :
    (⟨1, 2, 2, .tickFirst⟩ : Profile).wf = true ∧
    (st3 2 30 0xfffffffc).Inv ⟨1, 2, 2, .tickFirst⟩ := by decide

/-- No frame, a frame without a match, a frame with one. -/
theorem witness_StrobesReportEvents :
    (∃ t : State, step { State.reset with inputs := [.event 0b001] } = .next t ∧
      t.cmdValid = false) ∧
    (∃ t : State, step { st3 1 31 0x00ff10ee with inputs := [.event 0b010] } = .next t ∧
      t.cmdValid = true ∧ t.actValid = false) ∧
    (∃ t : State, step { st3 2 31 0x00ff10ee with inputs := [.event 0b010] } = .next t ∧
      t.cmdValid = true ∧ t.actValid = true) :=
  ⟨⟨_, rfl, rfl⟩, ⟨_, rfl, by decide, by decide⟩, ⟨_, rfl, by decide, by decide⟩⟩

theorem witness_StrobesLastOneStep : ∃ t : State,
    ({ st 0 0 0 0x00ff10ef true true 1 with inputs := [.event 0b010] } : State).Inv Config.hw ∧
    (st 0 0 0 0x00ff10ef true true 1).cmdValid = true ∧
    step { st 0 0 0 0x00ff10ef true true 1 with inputs := [.event 0b010] } = .next t :=
  ⟨_, by decide, rfl, rfl⟩

theorem witness_OutputsHoldBetweenCompletions :
    (∃ t : State, step { st3 1 30 0 with inputs := [.event 0b010] } = .next t ∧
      ({ st3 1 30 0 with inputs := [.event 0b010] } : State).eventWord.getLsbD 2 = false ∧
      t.cmdValid = false) ∧
    (∃ t : State, step { st3 1 31 0 with inputs := [.event 0b010] } = .next t ∧
      ({ st3 1 31 0 with inputs := [.event 0b010] } : State).eventWord.getLsbD 2 = false ∧
      t.actValid = false) :=
  ⟨⟨_, rfl, by decide, by decide⟩, ⟨_, rfl, by decide, by decide⟩⟩

theorem witness_OnlyEdgesMoveTheFrame : ∃ t : State,
    step { st3 9 30 0 with inputs := [.event 0b001] } = .next t ∧
    ({ st3 9 30 0 with inputs := [.event 0b001] } : State).eventWord.getLsbD 2 = false ∧
    ({ st3 9 30 0 with inputs := [.event 0b001] } : State).eventWord.getLsbD 1 = false :=
  ⟨_, rfl, by decide, by decide⟩

/-- One state for each of the four ways, at its boundary. -/
theorem witness_IndexMovesInFourWays :
    (∃ t : State, step { st3 50 31 0 with inputs := [.event 0b001] } = .next t ∧ t.pi.toInt = 31) ∧
    (∃ t : State, step { st3 49 30 0 with inputs := [.event 0b010] } = .next t ∧ t.pi.toInt = 31) ∧
    (∃ t : State, step { st3 50 31 0 with inputs := [.event 0b011] } = .next t ∧ t.pi.toInt = -2) ∧
    (∃ t : State, step { st3 49 31 0 with inputs := [.event 0b010] } = .next t ∧ t.pi.toInt = 0) :=
  ⟨⟨_, rfl, by decide⟩, ⟨_, rfl, by decide⟩, ⟨_, rfl, by decide⟩, ⟨_, rfl, by decide⟩⟩

theorem witness_TicksAccumulateUpToCeiling :
    (∀ i ∈ [Instr.tick, .idle, .tick], isQuiet i = true) ∧ (st3 49 0 0).cnt.toNat ≤ 50 := by decide

theorem witness_TicksAreConserved :
    (∀ i ∈ [Instr.tick, .edgt, .idle, .edge], isRunning i = true) ∧
    neverSaturates [.tick, .edgt, .idle, .edge] (st3 49 0 0) :=
  ⟨by decide, ⟨fun _ => by decide, nofun, nofun, nofun, trivial⟩⟩

/-- 49 ticks are not enough, 50 are; the frame stalls at its last bit and before it. -/
theorem witness_StalledFrameWaitsForLongGap :
    (∀ i ∈ [Instr.tick, .idle], isQuiet i = true) ∧
    (st3 49 31 0).Inv Config.hw ∧ (st3 48 31 0).Inv Config.hw ∧ (st3 48 30 0).Inv Config.hw ∧
    50 ≤ (st3 49 31 0).cnt.toNat + [Instr.tick, .idle].count .tick ∧
    (st3 48 31 0).cnt.toNat + [Instr.tick, .idle].count .tick < 50 ∧
    (st3 48 30 0).pi.toInt < 31 := by decide

theorem witness_IdleStepsDoNotMatter :
    ∀ i ∈ [Instr.idle, .edge, .idle, .edgt, .reset true false, .tick], isEvent i = true := by decide

theorem witness_ShortFrameDoesNotComplete :
    (List.replicate 33 (Gap.mk 1 true)).length < 34 ∧
    (∀ e ∈ gapSamples (st3 1 (-2) 0).cnt.toNat (List.replicate 33 (Gap.mk 1 true)), e < 50) ∧
    (st3 1 (-2) 0).pi.toInt = -2 ∧ (st3 1 (-2) 0).acc.toWord = 0 := by decide

/-- The state after a RESYNC by an EDGT (CNT = 1), the longest first gap, EDGE and EDGT edges. -/
theorem witness_FrameOf34EdgesDispatchesItsBits :
    (Gap.mk 48 true :: Gap.mk 4 false :: List.replicate 32 (Gap.mk 1 true)).length = 34 ∧
    (∀ e ∈ gapSamples (st3 1 (-2) 0).cnt.toNat
      (Gap.mk 48 true :: Gap.mk 4 false :: List.replicate 32 (Gap.mk 1 true)), e < 50) ∧
    (st3 1 (-2) 0).pi.toInt = -2 ∧ (st3 1 (-2) 0).acc.toWord = 0 := by decide

theorem witness_OnlyLegalProfilesAreBuilt :
    (0 < 1 ∧ 1 < 2 ∧ 2 ≤ 63 ∧ 63 ≤ 63) ∧ ¬ (0 < 2 ∧ 2 < 50 ∧ 50 ≤ 64 ∧ 64 ≤ 63) := by decide

theorem witness_CeilingAboveThresholdDecodesAlike :
    Config.hw.wf = true ∧ ({ Config.hw with ceil := 63 } : Profile).wf = true := by decide

theorem witness_PlacedWordIsNextStepsWord :
    7 < 8 ∧ ((0b1111 : CondWord).getLsbD 3 = true → (0b1111 : CondWord).getLsbD 2 = true) ∧
    ((0b0001 : CondWord).getLsbD 3 = true → (0b0001 : CondWord).getLsbD 2 = true) := by decide

end Sys2Proof.Tests
end

/-! SUPPORT. The invariant of Safety is kept by every operation, whatever the legal profile (spec
00_scope.md R7; 10_state.md R37, R23, R26, R28). CNT and the rest of the invariant are independent:
`CountInRange` alone speaks of CNT, and `FrameInv` alone of PI, ACC and the strobes. -/

section
namespace Sys2Proof.Machine

/-- The part of the invariant that speaks of PI, ACC and the strobes (R23, R26, R28). -/
def State.FrameInv (s : State) : Prop := s.IndexInRange ∧ s.UncollectedZero ∧ s.StrobesAgree

theorem State.inv_iff {c : Profile} {s : State} :
    s.Inv c ↔ s.CountInRange c ∧ s.FrameInv := Iff.rfl

@[simp] theorem frameInv_setCnt {s : State} {v : Count} :
    (s.setCnt v).FrameInv ↔ s.FrameInv := Iff.rfl

@[simp] theorem frameInv_latchLine {s : State} : (latchLine s).FrameInv ↔ s.FrameInv := Iff.rfl

theorem frameInv_clearStrobes {s : State} (h : s.FrameInv) : (clearStrobes s).FrameInv := by
  obtain ⟨hindex, hzero, -⟩ := h
  exact ⟨hindex, hzero, nofun, nofun⟩

/-- With ACC cleared only PI and the strobes are left to check (R26). -/
theorem frameInv_of_acc_zero {s : State} (hacc : s.acc = FourBytes.zero) (hindex : s.IndexInRange)
    (hstrobes : s.StrobesAgree) : s.FrameInv :=
  ⟨hindex, fun p _ => by rw [hacc, FourBytes.bitAt_zero], hstrobes⟩

/-- A new frame starts at PI = −2 (R122). -/
theorem frameInv_startFrame {s : State} (h : s.FrameInv) (hv : s.cmdValid = false) :
    (startFrame s).FrameInv := by
  obtain ⟨-, -, hact, -⟩ := h
  have hpi : (startFrame s).piVal = -2 := s.piVal_setPiVal (by decide) (by decide)
  exact frameInv_of_acc_zero rfl ⟨by omega, by omega⟩
    ⟨hact, fun hcmd => absurd (hv.symm.trans hcmd) Bool.false_ne_true⟩

@[simp] theorem completeFrame_piVal (s : State) : (completeFrame s).piVal = 0 := by
  rw [completeFrame_eq]; rfl

@[simp] theorem completeFrame_acc (s : State) : (completeFrame s).acc = FourBytes.zero := by
  rw [completeFrame_eq]

@[simp] theorem completeFrame_cmdValid (s : State) : (completeFrame s).cmdValid = true := by
  rw [completeFrame_eq]

/-- A completion leaves PI and ACC at 0 with CMD_VALID = 1, from any state (R126). -/
theorem frameInv_completeFrame (s : State) : (completeFrame s).FrameInv := by
  have hpi := completeFrame_piVal s
  exact frameInv_of_acc_zero (completeFrame_acc s) ⟨by omega, by omega⟩
    ⟨fun _ => completeFrame_cmdValid s, fun _ => hpi⟩

/-- decode(e) writes no bit of ACC but the one at position PI (R52, R125). -/
theorem bitAt_depositedAcc_of_ne (c : Profile) (e : Nat) {s : State} {q : Nat}
    (hq : (q : Int) ≠ s.piVal) : (depositedAcc c e s).bitAt q = s.acc.bitAt q := by
  by_cases h : c.tBit ≤ e ∧ 0 ≤ s.piVal ∧ s.piVal < 32
  · obtain ⟨hone, hlo, hhi⟩ := h
    have hne : q ≠ s.piVal.toNat := by omega
    rw [depositedAcc_one hone hlo hhi, FourBytes.bitAt_setBit _ (by omega)]
    simp [hne]
  · rw [depositedAcc_none (by omega)]

/-- An edge inside a frame deposits at PI and moves PI past the deposited bit (R123 to R125). -/
theorem frameInv_advance (c : Profile) (e : Nat) {s : State} (h : s.FrameInv)
    (hv : s.cmdValid = false) (hlt : s.piVal + 1 < 32) :
    ({ s with pi := BitVec.ofInt 8 (s.piVal + 1), acc := depositedAcc c e s } : State).FrameInv := by
  obtain ⟨⟨hlo, hhi⟩, hzero, hact, -⟩ := h
  have hpi : (BitVec.ofInt 8 (s.piVal + 1)).toInt = s.piVal + 1 :=
    State.toInt_ofInt_of_range (by omega) (by omega)
  refine ⟨?index, fun p hp => ?bits, hact, fun hcmd => ?strobe⟩
  case index =>
    rw [State.IndexInRange, State.piVal, hpi]
    omega
  case bits =>
    rw [State.piVal, hpi] at hp
    exact (bitAt_depositedAcc_of_ne c e (by omega)).trans (hzero p (by omega))
  case strobe => exact absurd (hv.symm.trans hcmd) Bool.false_ne_true

/-- decode(e) keeps the invariant from cleared strobes, for any profile and sample (R121). -/
theorem frameInv_decodeGap (c : Profile) (e : Nat) {s : State} (h : s.FrameInv)
    (hv : s.cmdValid = false) : (decodeGap c e s).FrameInv := by
  rcases decodeGap_cases c e s with ⟨-, hd⟩ | ⟨-, hlt, hd⟩ | ⟨-, -, hd⟩ <;> rw [hd]
  · exact frameInv_startFrame h hv
  · exact frameInv_advance c e h hv hlt
  · exact frameInv_completeFrame _

/-- One tick does not pass the ceiling (R37, R100). -/
theorem tickedCount_le_ceil {c : Profile} {n : Count} (hceil : c.ceil ≤ 63) (h : n.toNat ≤ c.ceil) :
    (tickedCount c n).toNat ≤ c.ceil := by
  rw [tickedCount_toNat c n hceil]
  split <;> omega

theorem inv_idleOp {c : Profile} {s : State} (h : s.Inv c) : (idleOp s).Inv c := by
  obtain ⟨hcnt, hframe⟩ := State.inv_iff.1 h
  exact State.inv_iff.2 ⟨hcnt, frameInv_latchLine.2 (frameInv_clearStrobes hframe)⟩

theorem inv_tickOp {c : Profile} {s : State} (hc : c.wf = true) (h : s.Inv c) :
    (tickOp c s).Inv c := by
  obtain ⟨hcnt, hframe⟩ := State.inv_iff.1 h
  obtain ⟨-, -, -, hceil⟩ := Profile.wf_iff.1 hc
  exact State.inv_iff.2 ⟨tickedCount_le_ceil hceil hcnt,
    frameInv_latchLine.2 (frameInv_clearStrobes (frameInv_setCnt.2 hframe))⟩

/-- What EDGE and both orders of EDGT have in common: a gap `e` is decoded and CNT restarts at
`v` (R101, R121, R131). -/
theorem inv_decodeGap_setCnt {c : Profile} {s : State} (e : Nat) {v : Count}
    (hv : v.toNat ≤ c.ceil) (h : s.FrameInv) :
    (latchLine ((decodeGap c e (clearStrobes s)).setCnt v)).Inv c :=
  State.inv_iff.2 ⟨hv, frameInv_latchLine.2 <| frameInv_setCnt.2 <|
    frameInv_decodeGap c e (frameInv_clearStrobes h) rfl⟩

theorem inv_edgeOp {c : Profile} {s : State} (h : s.Inv c) : (edgeOp c s).Inv c := by
  rw [edgeOp, decodeGap_setCnt]
  exact inv_decodeGap_setCnt _ (Nat.zero_le _) (State.inv_iff.1 h).2

theorem inv_edgtOp {c : Profile} {s : State} (hc : c.wf = true) (h : s.Inv c) :
    (edgtOp c s).Inv c := by
  obtain ⟨hbit, hbitStart, hstartCeil, -⟩ := Profile.wf_iff.1 hc
  have hframe := (State.inv_iff.1 h).2
  have hone : (1 : Count).toNat ≤ c.ceil := show 1 ≤ c.ceil by omega
  unfold edgtOp
  cases c.simulOrder with
  | edgeFirst => exact inv_decodeGap_setCnt _ hone hframe
  | tickFirst => exact inv_decodeGap_setCnt _ (Nat.zero_le _) hframe

theorem inv_resetOp (c : Profile) (s : State) : (resetOp s).Inv c := by
  have hpi : (resetOp s).piVal = -2 := rfl
  exact State.inv_iff.2 ⟨Nat.zero_le _,
    frameInv_of_acc_zero rfl ⟨by omega, by omega⟩ ⟨nofun, nofun⟩⟩

/-- Settles O32, one lemma per operation. -/
theorem everyLegalProfileKeepsInvariant : Obligations.EveryLegalProfileKeepsInvariant := by
  intro c s hc h
  exact ⟨inv_idleOp h, inv_tickOp hc h, inv_edgeOp h, inv_edgtOp hc h, inv_resetOp c s⟩

end Sys2Proof.Machine
end

/-! SUPPORT. Which profiles are built (spec 00_scope.md R7). -/

section
namespace Sys2Proof

theorem Profile.build_eq_some_iff {b t l : Nat} {o : SimulOrder} :
    Profile.build b t l o = some ⟨b, t, l, o⟩ ↔ Profile.wf ⟨b, t, l, o⟩ = true := by
  simp [Profile.build]

theorem Profile.build_eq_none_iff {b t l : Nat} {o : SimulOrder} :
    Profile.build b t l o = none ↔ ¬ Profile.wf ⟨b, t, l, o⟩ = true := by
  simp [Profile.build]

/-- Settles O44: a profile is built when it is legal, which is R7's chain of inequalities. -/
theorem onlyLegalProfilesAreBuilt : Obligations.OnlyLegalProfilesAreBuilt := by
  refine ⟨fun b t l o => ⟨?built, ?refused⟩, Profile.build_eq_some_iff.2 hw_wf⟩
  case built => exact Profile.build_eq_some_iff.trans Profile.wf_iff
  case refused => exact Profile.build_eq_none_iff.trans (not_congr Profile.wf_iff)

end Sys2Proof
end

/-! SUPPORT. What one step does to PI, the outputs and the events (spec 10_state.md R22 to R28, R35,
R37, R38; 42_command_lookup.md R152, R153, R157). Each property of an edge is proved of decode(e);
latching the line, writing CNT and numbering the step on touch none of the registers it speaks of. -/

section
namespace Sys2Proof.Machine

/-! The invariant over a step. -/

@[simp] theorem inv_nextStep {c : Profile} {s : State} : s.nextStep.Inv c ↔ s.Inv c := Iff.rfl

@[simp] theorem inv_present {c : Profile} {s : State} : s.present.Inv c ↔ s.Inv c := Iff.rfl

/-- Settles O30: the operation of a step keeps the invariant, and neither taking the input nor
numbering the step on writes a register the invariant speaks of. -/
theorem stepKeepsInvariant : Obligations.StepKeepsInvariant := by
  intro s t h hstep
  have hp : s.present.Inv Config.hw := inv_present.2 h
  rcases step_cases hstep with ⟨-, rfl⟩ | ⟨-, -, rfl | rfl⟩ | ⟨-, -, v, hv, rfl⟩ <;>
    rw [inv_nextStep]
  · exact inv_resetOp _ _
  · exact inv_idleOp hp
  · exact inv_tickOp hw_wf hp
  · have hceil : v.toNat ≤ Config.hw.ceil := by rw [hw_ceil]; omega
    exact inv_decodeGap_setCnt _ hceil (State.inv_iff.1 hp).2

/-! The other registers over a step, in terms of the operation it runs. -/

/-- After IDLE and TICK the strobes are 0, and PI, ACC, CMD, ACT and the events are as they were
(R100, R176). -/
theorem quietStep_frame {s t : State}
    (h : t = (idleOp s.present).nextStep ∨ t = (tickOp Config.hw s.present).nextStep) :
    t.cmdValid = false ∧ t.actValid = false ∧
    t.pi = s.pi ∧ t.acc = s.acc ∧ t.cmd = s.cmd ∧ t.act = s.act ∧ t.events = s.events := by
  rcases h with rfl | rfl <;>
    simp [State.nextStep, State.present, idleOp_eq, tickOp_eq]

/-- What ends an edge step after decode(e), here with result `d`, leaves PI, the outputs and the
events as they are. -/
@[simp] theorem edgeStep_outputs (d : State) (v : Count) :
    (latchLine (d.setCnt v)).nextStep.cmdValid = d.cmdValid ∧
    (latchLine (d.setCnt v)).nextStep.actValid = d.actValid ∧
    (latchLine (d.setCnt v)).nextStep.pi = d.pi ∧
    (latchLine (d.setCnt v)).nextStep.cmd = d.cmd ∧
    (latchLine (d.setCnt v)).nextStep.act = d.act ∧
    (latchLine (d.setCnt v)).nextStep.events = d.events := by
  simp [State.nextStep, latchLine]

/-- What begins an edge step before decode(e) leaves PI, CMD, ACT, the events and the step number as
they are and both strobes at 0 (R27, R28). -/
@[simp] theorem edgeStart_outputs (s : State) :
    (clearStrobes s.present).cmdValid = false ∧ (clearStrobes s.present).actValid = false ∧
    (clearStrobes s.present).piVal = s.piVal ∧ (clearStrobes s.present).cmd = s.cmd ∧
    (clearStrobes s.present).act = s.act ∧ (clearStrobes s.present).events = s.events ∧
    (clearStrobes s.present).stepNo = s.stepNo := by
  simp [clearStrobes, State.present, State.piVal]

/-! A completion, by the two outcomes of its lookup. -/

/-- COMPLETE on a match: ACT holds the code, and an Action follows the Dispatch (R126, R151). -/
theorem completeFrame_of_match {s : State} {a : Action}
    (h : lookupKey s.acc.b1 s.acc.b2 s.acc.b3 = some a) :
    completeFrame s =
      { s with
        cmd := s.acc, acc := FourBytes.zero, pi := 0, cmdValid := true, actValid := true,
        act := a.code,
        events := s.events ++
          [(s.stepNo, .dispatch s.acc.b0 s.acc.b1 s.acc.b2 s.acc.b3), (s.stepNo, .action a)] } := by
  simp [completeFrame_eq, h]

/-- COMPLETE without a match: ACT keeps its value, and the Dispatch stands alone (R126, R154). -/
theorem completeFrame_of_no_match {s : State}
    (h : lookupKey s.acc.b1 s.acc.b2 s.acc.b3 = none) :
    completeFrame s =
      { s with
        cmd := s.acc, acc := FourBytes.zero, pi := 0, cmdValid := true, actValid := false,
        events := s.events ++ [(s.stepNo, .dispatch s.acc.b0 s.acc.b1 s.acc.b2 s.acc.b3)] } := by
  simp [completeFrame_eq, h]

/-- COMPLETE writes ACT only where it raises ACT_VALID (R28, R154). -/
theorem completeFrame_holds_act {s : State} (hact : (completeFrame s).actValid = false) :
    (completeFrame s).act = s.act := by
  cases h : lookupKey s.acc.b1 s.acc.b2 s.acc.b3 with
  | none => rw [completeFrame_of_no_match h]
  | some a =>
    rw [completeFrame_of_match h] at hact
    exact absurd hact.symm Bool.false_ne_true

/-! The strobes as a report of the events. -/

/-- The strobes, CMD and ACT of `t` say which events stand in `t` after those of `s`, emitted in the
step of `s` (R27, R28, R152, R153). -/
def State.Reports (s t : State) : Prop :=
  (t.cmdValid = false → t.actValid = false ∧ t.events = s.events) ∧
  (t.cmdValid = true → t.actValid = false → t.events = s.events ++
    [(s.stepNo, .dispatch t.cmd.b0 t.cmd.b1 t.cmd.b2 t.cmd.b3)]) ∧
  (t.cmdValid = true → t.actValid = true → ∃ a : Action, t.act = a.code ∧ t.events = s.events ++
    [(s.stepNo, .dispatch t.cmd.b0 t.cmd.b1 t.cmd.b2 t.cmd.b3), (s.stepNo, .action a)])

/-- With both strobes 0, the report is that nothing was emitted. -/
theorem reports_of_quiet {s t : State} (hcmd : t.cmdValid = false) (hact : t.actValid = false)
    (hevents : t.events = s.events) : s.Reports t := by
  refine ⟨fun _ => ⟨hact, hevents⟩, ?_, ?_⟩ <;>
    exact fun h => absurd (hcmd.symm.trans h) Bool.false_ne_true

/-- A completion reports its Dispatch, and its Action when the lookup matches (R152, R153). -/
theorem reports_completeFrame (s : State) : s.Reports (completeFrame s) := by
  cases h : lookupKey s.acc.b1 s.acc.b2 s.acc.b3 with
  | none =>
    rw [completeFrame_of_no_match h]
    exact ⟨nofun, fun _ _ => rfl, nofun⟩
  | some a =>
    rw [completeFrame_of_match h]
    exact ⟨nofun, nofun, fun _ _ => ⟨a, rfl, rfl⟩⟩

/-- decode(e) reports its events when it starts with both strobes at 0 (R121). -/
theorem reports_decodeGap (c : Profile) (e : Nat) {s : State} (hcmd : s.cmdValid = false)
    (hact : s.actValid = false) : s.Reports (decodeGap c e s) := by
  rcases decodeGap_cases c e s with ⟨-, hd⟩ | ⟨-, -, hd⟩ | ⟨-, -, hd⟩ <;> rw [hd]
  · exact reports_of_quiet hcmd hact rfl
  · exact reports_of_quiet hcmd hact rfl
  · exact reports_completeFrame _

theorem reports_edgeStep_iff {s d : State} {v : Count} :
    s.Reports (latchLine (d.setCnt v)).nextStep ↔ s.Reports d := by
  simp only [State.Reports, edgeStep_outputs]

theorem clearStrobes_present_reports_iff {s d : State} :
    (clearStrobes s.present).Reports d ↔ s.Reports d := by
  simp only [State.Reports, edgeStart_outputs]

/-- Settles O33: only an edge can emit, and decode(e) starts from cleared strobes. -/
theorem strobesReportEvents : Obligations.StrobesReportEvents := by
  intro s t hstep
  rcases step_cases hstep with ⟨-, rfl⟩ | ⟨-, -, hquiet⟩ | ⟨-, -, v, -, rfl⟩
  · exact reports_of_quiet rfl rfl rfl
  · obtain ⟨hcmd, hact, -, -, -, -, hevents⟩ := quietStep_frame hquiet
    exact reports_of_quiet hcmd hact hevents
  · exact reports_edgeStep_iff.2 <| clearStrobes_present_reports_iff.1 <|
      reports_decodeGap _ _ rfl rfl

/-! What holds CMD, ACT, PI and ACC. -/

/-- decode(e) writes CMD only where it raises CMD_VALID, and ACT only where it raises ACT_VALID (R25,
R28). -/
theorem decodeGap_holds_outputs (c : Profile) (e : Nat) (s : State) :
    ((decodeGap c e s).cmdValid = false → (decodeGap c e s).cmd = s.cmd) ∧
    ((decodeGap c e s).actValid = false → (decodeGap c e s).act = s.act) := by
  rcases decodeGap_cases c e s with ⟨-, hd⟩ | ⟨-, -, hd⟩ | ⟨-, -, hd⟩ <;> rw [hd]
  · exact ⟨fun _ => rfl, fun _ => rfl⟩
  · exact ⟨fun _ => rfl, fun _ => rfl⟩
  · refine ⟨fun hcmd => ?_, completeFrame_holds_act⟩
    rw [completeFrame_cmdValid] at hcmd
    exact absurd hcmd.symm Bool.false_ne_true

/-- Settles O36: such a step is IDLE or TICK, and these write CNT, the strobes and IR_PREV only. -/
theorem onlyEdgesMoveTheFrame : Obligations.OnlyEdgesMoveTheFrame := by
  intro s t hstep hrst hedge
  rcases step_cases hstep with ⟨hrst', -⟩ | ⟨-, -, hquiet⟩ | ⟨-, hedge', -⟩
  · exact absurd (hrst.symm.trans hrst') Bool.false_ne_true
  · obtain ⟨-, -, hframe⟩ := quietStep_frame hquiet
    exact hframe
  · exact absurd (hedge.symm.trans hedge') Bool.false_ne_true

/-- Settles O35: without an edge both outputs hold, and an edge is decode(e). -/
theorem outputsHoldBetweenCompletions : Obligations.OutputsHoldBetweenCompletions := by
  intro s t hstep hrst
  rcases step_cases hstep with ⟨hrst', -⟩ | ⟨-, hedge, -⟩ | ⟨-, -, v, -, rfl⟩
  · exact absurd (hrst.symm.trans hrst') Bool.false_ne_true
  · obtain ⟨-, -, hcmd, hact, -⟩ := onlyEdgesMoveTheFrame s t hstep hrst hedge
    exact ⟨fun _ => hcmd, fun _ => hact⟩
  · simpa using decodeGap_holds_outputs Config.hw s.cnt.toNat (clearStrobes s.present)

/-! The moves of PI. -/

/-- decode(e) moves PI by + 1, to −2, or to 0 by a completion (R38). -/
theorem decodeGap_piVal_cases (c : Profile) (e : Nat) (s : State) :
    (e < c.tStart ∧ s.piVal + 1 < 32 ∧ (decodeGap c e s).piVal = s.piVal + 1) ∨
    (c.tStart ≤ e ∧ (decodeGap c e s).piVal = -2) ∨
    (e < c.tStart ∧ 32 ≤ s.piVal + 1 ∧ (decodeGap c e s).piVal = 0 ∧
      (decodeGap c e s).cmdValid = true) := by
  have hrange := s.piVal_range
  rcases decodeGap_cases c e s with ⟨hstart, hd⟩ | ⟨hbelow, hlt, hd⟩ | ⟨hbelow, hend, hd⟩
  · exact .inr (.inl ⟨hstart, hd ▸ s.piVal_setPiVal (by decide) (by decide)⟩)
  · exact .inl ⟨hbelow, hlt, hd ▸ State.toInt_ofInt_of_range (by omega) (by omega)⟩
  · exact .inr (.inr ⟨hbelow, hend, hd ▸ completeFrame_piVal _, hd ▸ completeFrame_cmdValid _⟩)

/-- Settles O37: RESET writes −2, a step without edge and reset keeps PI, and an edge moves it as
decode(e) does. -/
theorem indexMovesInFourWays : Obligations.IndexMovesInFourWays := by
  intro s t hstep
  rcases step_cases hstep with ⟨hrst, rfl⟩ | ⟨hrst, hedge, -⟩ | ⟨hrst, hedge, v, -, rfl⟩
  · exact .inr (.inr (.inl ⟨.inl hrst, rfl⟩))
  · obtain ⟨hpi, -⟩ := onlyEdgesMoveTheFrame s t hstep hrst hedge
    exact .inl ⟨hrst, hedge, hpi⟩
  · rcases decodeGap_piVal_cases Config.hw s.cnt.toNat (clearStrobes s.present) with
      ⟨hbelow, hlt, hpi⟩ | ⟨hstart, hpi⟩ | ⟨hbelow, hend, hpi, hvalid⟩
    · exact .inr (.inl ⟨hrst, hedge, hbelow, hlt, hpi⟩)
    · exact .inr (.inr (.inl ⟨.inr ⟨hedge, hstart⟩, hpi⟩))
    · exact .inr (.inr (.inr ⟨hrst, hedge, hbelow, hend, hpi, hvalid⟩))

/-! The reset state. -/

/-- Settles O2: each register of the reset state, read off its definition. -/
theorem resetStateHasResetValues : Obligations.ResetStateHasResetValues :=
  ⟨rfl, rfl, rfl, rfl, rfl, rfl, rfl, rfl⟩

/-- Settles O31: the reset state is what RESET makes of it, and RESET establishes the invariant. -/
theorem resetMeetsInvariant : Obligations.ResetMeetsInvariant :=
  inv_resetOp Config.hw State.reset

end Sys2Proof.Machine
end

/-! SUPPORT. The registers as the block's only memory (spec 20_memory.md): the bits of ACC (R51, R52),
the two orders of EDGT (R59) and the account of ticks over a run (R60). -/

section
namespace Sys2Proof.Machine

/-! The bits of ACC. -/

/-- Bit `j` of byte `i` holds data position 8 · i + (7 − j): R52 read backwards. -/
theorem getLsbD_get_eq_bitAt (f : FourBytes) (i : Nat) {j : Nat} (hj : j < 8) :
    (f.get i).getLsbD j = f.bitAt (8 * i + (7 - j)) := by
  have hbyte : byteIndex (8 * i + (7 - j)) = i := by
    rw [byteIndex, Nat.shiftRight_eq_div_pow]
    omega
  have hbit : bitOffset (8 * i + (7 - j)) = j := by
    rw [bitOffset, Nat.and_two_pow_sub_one_eq_mod _ 3]
    omega
  rw [FourBytes.bitAt, hbyte, hbit]

/-- Settles O23: every bit of the four bytes is a data position, and a deposit at p sets position p
alone. -/
theorem depositAddressesOneBit : Obligations.DepositAddressesOneBit := by
  intro f p hp
  refine ⟨f.toWord_setBit hp, fun i j _ hj => ?_⟩
  have hpos : 8 * i + (7 - j) = p ↔ i = p / 8 ∧ j = 7 - p % 8 := by omega
  rw [getLsbD_get_eq_bitAt _ i hj, getLsbD_get_eq_bitAt _ i hj, f.bitAt_setBit hp, ← Bool.decide_and,
    decide_eq_decide.2 hpos]

/-! The two orders of EDGT, each beside EDGE: decode(e) of a sample, then what CNT restarts at. -/

/-- EDGE decodes the gap held in CNT and restarts CNT at 0 (R101, R120). -/
theorem edgeOp_eq (c : Profile) (s : State) :
    edgeOp c s = latchLine ((decodeGap c s.cnt.toNat (clearStrobes s)).setCnt 0) := by
  rw [edgeOp, decodeGap_setCnt]

/-- EDGE with the count `n` in place of CNT: the sample is `n`, and nothing else changes (R107). -/
theorem edgeOp_setCnt (c : Profile) (s : State) (n : Count) :
    edgeOp c (s.setCnt n) = latchLine ((decodeGap c n.toNat (clearStrobes s)).setCnt 0) := by
  have hcomm : clearStrobes (s.setCnt n) = (clearStrobes s).setCnt n := rfl
  rw [edgeOp_eq, hcomm, decodeGap_setCnt]
  rfl

/-- Under edge_first an EDGT is an EDGE whose tick is counted afterwards (R59, R131). -/
theorem edgtOp_of_edgeFirst {c : Profile} (h : c.simulOrder = .edgeFirst) (s : State) :
    edgtOp c s = (edgeOp c s).setCnt 1 := by
  rw [edgeOp_eq, edgtOp, h]
  rfl

/-- Under tick_first an EDGT is an EDGE whose tick has been counted before (R59, R131). -/
theorem edgtOp_of_tickFirst {c : Profile} (h : c.simulOrder = .tickFirst) (s : State) :
    edgtOp c s = edgeOp c (s.setCnt (tickedCount c s.cnt)) := by
  rw [edgeOp_setCnt, edgtOp, h]

@[simp] theorem edgeOp_cnt (c : Profile) (s : State) : (edgeOp c s).cnt = 0 := by
  rw [edgeOp_eq]
  rfl

/-- At the ceiling a tick leaves the count as it is (R100). -/
theorem tickedCount_of_ceil_le {c : Profile} {n : Count} (h : c.ceil ≤ n.toNat) :
    tickedCount c n = n :=
  if_neg (Nat.not_lt.2 h)

/-- Below the ceiling a tick adds one (R100). -/
theorem tickedCount_toNat_of_lt {c : Profile} {n : Count} (hceil : c.ceil ≤ 63)
    (h : n.toNat < c.ceil) : (tickedCount c n).toNat = n.toNat + 1 := by
  rw [tickedCount_toNat c n hceil, if_pos h]

/-- Settles O15: one lemma per order; under tick_first the sample is the count after one tick. -/
theorem edgtTakesOneOfTwoOrders : Obligations.EdgtTakesOneOfTwoOrders := by
  intro c s hc
  obtain ⟨-, -, -, hceil⟩ := Profile.wf_iff.1 hc
  refine ⟨fun horder => edgtOp_of_edgeFirst horder s, fun horder => ?_⟩
  have hedgt := edgtOp_of_tickFirst horder s
  exact ⟨hedgt ▸ edgeOp_cnt c _, tickedCount c s.cnt, tickedCount_toNat_of_lt hceil,
    tickedCount_of_ceil_le, hedgt⟩

/-! The account of ticks, by the first operation of a run. -/

theorem ticksIn_cons (i : Instr) (is : List Instr) :
    ticksIn (i :: is) = ticksIn [i] + ticksIn is := by
  simp only [ticksIn, ← List.countP_append, List.singleton_append]

theorem samplesOf_cons {i : Instr} {s t : State} (is : List Instr) (h : exec i s = .next t) :
    samplesOf (i :: is) s = samplesOf [i] s + samplesOf is t := by
  simp only [samplesOf, h, Nat.add_zero]

theorem neverSaturates_cons {i : Instr} {s t : State} {is : List Instr} (h : exec i s = .next t) :
    neverSaturates (i :: is) s ↔
      (i = .tick → s.cnt.toNat < Config.hw.ceil) ∧ neverSaturates is t := by
  simp only [neverSaturates, h]

/-- One operation below saturation: what CNT loses to the sample and gains from the tick (R58, R60). -/
theorem exec_conserves_ticks {i : Instr} {s t : State} (hrun : isRunning i = true)
    (hsat : i = .tick → s.cnt.toNat < Config.hw.ceil) (h : exec i s = .next t) :
    samplesOf [i] s + t.cnt.toNat = s.cnt.toNat + ticksIn [i] := by
  cases i with
  | idle =>
    obtain rfl : idleOp s = t := Host.Outcome.next.inj h
    exact Nat.zero_add _
  | tick =>
    obtain rfl : tickOp Config.hw s = t := Host.Outcome.next.inj h
    have hcnt : (tickOp Config.hw s).cnt.toNat = s.cnt.toNat + 1 :=
      tickedCount_toNat_of_lt (by decide) (hsat rfl)
    exact (Nat.zero_add _).trans hcnt
  | edge =>
    obtain rfl : edgeOp Config.hw s = t := Host.Outcome.next.inj h
    rw [edgeOp_cnt]
    rfl
  | edgt =>
    obtain rfl : edgtOp Config.hw s = t := Host.Outcome.next.inj h
    rw [edgtOp_of_edgeFirst hw_simulOrder]
    rfl
  | _ => exact absurd hrun Bool.false_ne_true

/-- Settles O39, by induction on the run: each operation balances its own sample and tick. -/
theorem ticksAreConserved : Obligations.TicksAreConserved := by
  intro is
  induction is with
  | nil => exact fun s _ _ => ⟨s, rfl, Nat.zero_add _⟩
  | cons i is ih =>
    intro s hrun hsat
    obtain ⟨hi, his⟩ := List.forall_mem_cons.1 hrun
    obtain ⟨u, hu⟩ := exec_next i s
    obtain ⟨hfirst, hrest⟩ := (neverSaturates_cons hu).1 hsat
    have hstep := exec_conserves_ticks hi hfirst hu
    obtain ⟨t, ht, hsum⟩ := ih u his hrest
    refine ⟨t, (execSeq_cons is hu).trans ht, ?_⟩
    rw [samplesOf_cons is hu, ticksIn_cons]
    omega

end Sys2Proof.Machine
end

/-! SUPPORT. The words of the three formats (spec 30_encoding.md R71, R73, R78, R79). The four rows of
format CMD that request an action differ only in the action, so they are treated as one family. -/

section
namespace Sys2Proof

/-! The rows of format CMD, by action. -/

/-- The row of format CMD that requests the action, with its byte 0 (R78). -/
def Action.row : Action → Byte → Instr
  | .up    => .actUp
  | .left  => .actLeft
  | .right => .actRight
  | .down  => .actDown

/-- Bytes 1 to 3 of the action's entry in the command table (R78). -/
def Action.key : Action → BitVec 24
  | .up    => 0xFF18E7
  | .left  => 0xFF10EF
  | .right => 0xFF5AA5
  | .down  => 0xFF4AB5

theorem Action.row_inj {a a' : Action} {b b' : Byte} : a.row b = a'.row b' ↔ a = a' ∧ b = b' := by
  cases a <;> cases a' <;> simp [Action.row]

theorem Action.row_ne_noMatch (a : Action) (b : Byte) (w : Word) : a.row b ≠ .noMatch w := by
  cases a <;> exact Instr.noConfusion

theorem Action.wf_row (a : Action) (b : Byte) : (a.row b).wf = true := by
  cases a <;> rfl

theorem encode_row (a : Action) (b : Byte) : encode (a.row b) = .cmd (b ++ a.key) := by
  cases a <;> rfl

theorem wf_noMatch_iff_key (w : Word) :
    (Instr.noMatch w).wf = true ↔ ∀ a : Action, w.truncate 24 ≠ a.key := by
  rw [wf_noMatch_iff]
  constructor
  · rintro ⟨hup, hleft, hright, hdown⟩ (_ | _ | _ | _) <;> assumption
  · exact fun h => ⟨h .up, h .left, h .right, h .down⟩

theorem decodeCmd_of_key {w : Word} {a : Action} (h : w.truncate 24 = a.key) :
    decodeCmd w = a.row (w.extractLsb' 24 8) := by
  rw [decodeCmd_eq, h]
  cases a <;> rfl

theorem decodeCmd_of_no_key {w : Word} (h : ∀ a : Action, w.truncate 24 ≠ a.key) :
    decodeCmd w = .noMatch w := by
  obtain ⟨hup, hleft, hright, hdown⟩ := (wf_noMatch_iff w).1 ((wf_noMatch_iff_key w).2 h)
  rw [decodeCmd_eq, if_neg hup, if_neg hleft, if_neg hright, if_neg hdown]

/-- A command word selects the row of its key's action, or the default row (R78, R79). -/
theorem decodeCmd_cases (w : Word) :
    (∃ a : Action, w.truncate 24 = a.key ∧ decodeCmd w = a.row (w.extractLsb' 24 8)) ∨
    ((∀ a : Action, w.truncate 24 ≠ a.key) ∧ decodeCmd w = .noMatch w) := by
  by_cases h : ∃ a : Action, w.truncate 24 = a.key
  · obtain ⟨a, ha⟩ := h
    exact .inl ⟨a, ha, decodeCmd_of_key ha⟩
  · have hne := not_exists.1 h
    exact .inr ⟨hne, decodeCmd_of_no_key hne⟩

/-! Decode and encode of command words. -/

theorem decodeCmd_encode_row (a : Action) (b : Byte) : decodeCmd (b ++ a.key) = a.row b := by
  rw [decodeCmd_of_key (truncate_append_key b a.key), byte0_append_key]

/-- Byte 0 and the key make up the word (R9, R51). -/
theorem byte0_append_truncate (w : Word) : w.extractLsb' 24 8 ++ w.truncate 24 = w :=
  calc w.extractLsb' 24 8 ++ w.truncate 24
    _ = w.extractLsb' 24 8 ++ w.extractLsb' 0 24 := by
      rw [BitVec.truncate_eq_setWidth, BitVec.setWidth_eq_extractLsb' (by decide)]
    _ = w.extractLsb' 0 32 := BitVec.extractLsb'_append_extractLsb'_eq_extractLsb' rfl
    _ = w := BitVec.extractLsb'_eq_self

theorem encode_decodeCmd (w : Word) : encode (decodeCmd w) = .cmd w ∧ (decodeCmd w).wf = true := by
  rcases decodeCmd_cases w with ⟨a, hkey, hd⟩ | ⟨hne, hd⟩ <;> rw [hd]
  · exact ⟨by rw [encode_row, ← hkey, byte0_append_truncate], a.wf_row _⟩
  · exact ⟨rfl, (wf_noMatch_iff_key w).2 hne⟩

/-! Decode and encode of all words. -/

theorem row_mem_decode_encode (a : Action) (b : Byte) : a.row b ∈ decode (encode (a.row b)) := by
  rw [encode_row, decode, decodeCmd_encode_row]
  exact List.mem_singleton_self _

theorem mem_decode_encode {i : Instr} (h : i.wf = true) : i ∈ decode (encode i) := by
  cases i with
  | idle => decide
  | tick => decide
  | edge => decide
  | edgt => decide
  | reset e t => revert e t; decide
  | resync o r l => revert o r l; decide
  | header o => revert o; decide
  | bit0 l => revert l; decide
  | bit1 l => revert l; decide
  | complete o r => revert o r; decide
  | actUp b => exact row_mem_decode_encode .up b
  | actLeft b => exact row_mem_decode_encode .left b
  | actRight b => exact row_mem_decode_encode .right b
  | actDown b => exact row_mem_decode_encode .down b
  | noMatch w =>
    rw [encode, decode, decodeCmd_of_no_key ((wf_noMatch_iff_key w).1 h)]
    exact List.mem_singleton_self _

theorem encode_decodeEv (w : EventWord) :
    encode (decodeEv w) = .ev w ∧ (decodeEv w).wf = true := by
  revert w; decide

theorem encode_of_mem_decodeCond (w : CondWord) :
    ∀ i ∈ decodeCond w, encode i = .cond w ∧ i.wf = true := by
  revert w; decide

theorem encode_of_mem_decode {k : Code} {i : Instr} (h : i ∈ decode k) :
    encode i = k ∧ i.wf = true := by
  cases k with
  | ev w =>
    obtain rfl := List.mem_singleton.1 h
    exact encode_decodeEv w
  | cond w => exact encode_of_mem_decodeCond w i h
  | cmd w =>
    obtain rfl := List.mem_singleton.1 h
    exact encode_decodeCmd w

/-- Settles O22: from an instruction by its constructor, from a word by its format; the two short
formats are finite, and a command word is its byte 0 followed by its key. -/
theorem decodeAndEncodeAgree : Obligations.DecodeAndEncodeAgree :=
  ⟨fun _ => mem_decode_encode, fun _ _ => encode_of_mem_decode⟩

/-! The table's match and mask. -/

theorem keyMask_iff_decodeCmd (w : Word) (a : Action) :
    w &&& 0x00FFFFFF = a.key.setWidth 32 ↔ ∃ b, decodeCmd w = a.row b := by
  rw [keyMask_iff]
  refine ⟨fun h => ⟨_, decodeCmd_of_key h⟩, ?_⟩
  rintro ⟨b, hb⟩
  rcases decodeCmd_cases w with ⟨a', hkey, hd⟩ | ⟨-, hd⟩
  · rw [hkey, (Action.row_inj.1 (hd.symm.trans hb)).1]
  · exact absurd (hb.symm.trans hd) (a.row_ne_noMatch b w)

theorem decodeCmd_eq_noMatch_iff (w : Word) :
    decodeCmd w = .noMatch w ↔ ∀ a : Action, ¬ (w &&& 0x00FFFFFF = a.key.setWidth 32) := by
  simp only [keyMask_iff]
  refine ⟨fun h a ha => ?_, decodeCmd_of_no_key⟩
  exact a.row_ne_noMatch _ w ((decodeCmd_of_key ha).symm.trans h)

/-- Settles O21: one lemma for the four rows of an action, and the default row where none applies. -/
theorem commandWordsFollowMasks : Obligations.CommandWordsFollowMasks := by
  intro w
  refine ⟨keyMask_iff_decodeCmd w .up, keyMask_iff_decodeCmd w .left,
    keyMask_iff_decodeCmd w .right, keyMask_iff_decodeCmd w .down, ?_⟩
  rw [decodeCmd_eq_noMatch_iff]
  constructor
  · exact fun h => ⟨h .up, h .left, h .right, h .down⟩
  · rintro ⟨hup, hleft, hright, hdown⟩ (_ | _ | _ | _) <;> assumption

/-- Settles O19: the decoder evaluated on each of the eight words. -/
theorem eventWordsDecode : Obligations.EventWordsDecode :=
  ⟨rfl, rfl, rfl, rfl, rfl, rfl, rfl, rfl⟩

/-- Settles O20: the five rows checked on each of the sixteen condition words. -/
theorem conditionWordsFollowMasks : Obligations.ConditionWordsFollowMasks := by
  unfold Obligations.ConditionWordsFollowMasks
  decide

end Sys2Proof
end

/-! SUPPORT. What the rows of formats CMD and COND do (spec 30_encoding.md R73, R78;
41_frame_decoder.md R121; 42_command_lookup.md R151, R154): the lookup rows, and decode(e) as the
sequence of sub-operations that the condition word selects. -/

section
namespace Sys2Proof.Machine

theorem exec_row (a : Action) (b : Byte) (s : State) : exec (a.row b) s = .next
    { s with act := a.code, actValid := true, events := s.events ++ [(s.stepNo, .action a)] } := by
  cases a <;> rfl

/-- Settles O13: the four rows of an action by one lemma; NO_MATCH writes ACT_VALID alone. -/
theorem lookupRowsWriteActionCode : Obligations.LookupRowsWriteActionCode :=
  ⟨exec_row .up, exec_row .left, exec_row .right, exec_row .down, fun _ _ => rfl⟩

/-! What COMPLETE overwrites, and what it and decode(e) do not touch. -/

theorem completeFrame_setPi (s : State) (v : PulseIndex) :
    completeFrame (s.setPi v) = completeFrame s := by
  rw [completeFrame_eq, completeFrame_eq]
  rfl

theorem completeFrame_clearStrobes (s : State) :
    completeFrame (clearStrobes s) = completeFrame s := by
  rw [completeFrame_eq, completeFrame_eq]
  rfl

theorem completeFrame_latchLine (s : State) :
    completeFrame (latchLine s) = latchLine (completeFrame s) := by
  rw [completeFrame_eq, completeFrame_eq]
  rfl

theorem depositBit_advanceIndex (p : Int) (s : State) :
    depositBit p (advanceIndex s) = advanceIndex (depositBit p s) := by
  rw [depositBit_eq, depositBit_eq]
  rfl

theorem depositBit_latchLine (p : Int) (s : State) :
    depositBit p (latchLine s) = latchLine (depositBit p s) := by
  rw [depositBit_eq, depositBit_eq]
  rfl

/-- decode(e) neither reads nor writes IR_PREV (R107, R120). -/
theorem decodeGap_latchLine (c : Profile) (e : Nat) (s : State) :
    decodeGap c e (latchLine s) = latchLine (decodeGap c e s) := by
  have hpi : (latchLine s).piVal = s.piVal := rfl
  have hstart : startFrame (latchLine s) = latchLine (startFrame s) := rfl
  have hadvance : advanceIndex (latchLine s) = latchLine (advanceIndex s) := rfl
  simp only [decodeGap, hpi, hstart, hadvance, depositBit_latchLine, completeFrame_latchLine,
    ← apply_ite]

/-! The condition word. -/

/-- The condition decoder on the four bits of its word (R73). -/
theorem decodeCond_ofBits (s o r l : Bool) :
    decodeCond (BitVec.ofBool s ++ BitVec.ofBool o ++ BitVec.ofBool r ++ BitVec.ofBool l) =
      if s then [.resync o r l]
      else (if r then [if o then .bit1 l else .bit0 l] else if l then [] else [.header o])
        ++ (if l then [.complete o r] else []) := by
  revert s o r l; decide

/-- decode(e) is the sequence of sub-operations its condition word selects, for any profile, sample
and index. Below the start marker the row is that of the index; before COMPLETE neither PI nor the
strobes matter, so it may stand alone or after a BIT row (R73, R121, R127). -/
theorem execSeq_decodeCond (c : Profile) (e : Nat) (s : State) :
    execSeq (decodeCond (condWord c e s.piVal)) s = .next (decodeGap c e (clearStrobes s)) := by
  have hpi : (clearStrobes s).piVal = s.piVal := rfl
  simp only [condWord, decodeCond_ofBits, decodeGap, hpi, depositBit_advanceIndex]
  cases isStart c e
  case true => rfl
  case false =>
    cases inData s.piVal
    case false =>
      cases atEnd s.piVal
      case false => rfl
      case true => exact congrArg Host.Outcome.next (completeFrame_setPi _ _).symm
    case true =>
      cases isOne c e <;> cases atEnd s.piVal
      case false.false | true.false => rfl
      case false.true | true.true =>
        exact congrArg Host.Outcome.next (completeFrame_clearStrobes _)

/-- The condition word under this hardware's profile, with its four tests written out (R73). -/
theorem condWord_hw (e : Nat) (p : Int) : condWord Config.hw e p =
    BitVec.ofBool (decide (50 ≤ e)) ++ BitVec.ofBool (decide (2 ≤ e))
      ++ BitVec.ofBool (decide (0 ≤ p ∧ p < 32)) ++ BitVec.ofBool (decide (32 ≤ p + 1)) := by
  rw [Bool.decide_and]
  rfl

/-- What EDGE and EDGT have in common: the sub-operations run on the state after the sample, with the
strobes cleared, the line latched and CNT restarted at `v` (R101, R120, R131). -/
theorem execSeq_decodeCond_edge (s : State) (v : Count) :
    execSeq (decodeCond (condWord Config.hw s.cnt.toNat s.piVal))
      { s with cnt := v, cmdValid := false, actValid := false, irPrev := s.irIn } =
    .next (latchLine ((decodeGap Config.hw s.cnt.toNat (clearStrobes s)).setCnt v)) := by
  rw [← decodeGap_setCnt, ← decodeGap_latchLine]
  exact execSeq_decodeCond Config.hw s.cnt.toNat (latchLine ((clearStrobes s).setCnt v))

/-- Settles O17: EDGE and EDGT differ in what CNT restarts at. -/
theorem edgeRunsItsConditionWord : Obligations.EdgeRunsItsConditionWord := by
  intro s w u
  have hw : w = condWord Config.hw s.cnt.toNat s.piVal := (condWord_hw _ _).symm
  rw [hw]
  refine ⟨?edge, ?edgt⟩
  case edge =>
    have hedge : exec .edge s = .next (edgeOp Config.hw s) := rfl
    rw [hedge, edgeOp_eq]
    exact (execSeq_decodeCond_edge s 0).symm
  case edgt => exact (execSeq_decodeCond_edge s 1).symm

end Sys2Proof.Machine
end

/-! SUPPORT. The words placed for the next step (log entry 6; spec 30_encoding.md R71, R73, R78). -/

section
namespace Sys2Proof.Machine

theorem codeOf_ev {w : Nat} (h : w < 8) : codeOf 8 w = .ok (.ev (BitVec.ofNat 3 w)) := if_pos h

theorem codeOf_cond (w : CondWord) : codeOf 4 w.toNat = .ok (.cond w) := by
  simp [codeOf, w.isLt]

theorem codeOf_cmd (w : Word) : codeOf 32 w.toNat = .ok (.cmd w) := by
  simp [codeOf, w.isLt]

theorem withFetchWord_ev (s : State) {w : Nat} (h : w < 8) :
    s.withFetchWord 8 w = s.placeEvent (BitVec.ofNat 3 w) := by
  rw [State.withFetchWord, State.placeWord, codeOf_ev h]

theorem withFetchWord_cond (s : State) (w : CondWord) :
    s.withFetchWord 4 w.toNat = s.placeCond w := by
  rw [State.withFetchWord, State.placeWord, codeOf_cond]

theorem withFetchWord_cmd (s : State) (w : Word) :
    s.withFetchWord 32 w.toNat = s.placeCmd w := by
  rw [State.withFetchWord, State.placeWord, codeOf_cmd]

@[simp] theorem placeEvent_eventWord (s : State) (ev : EventWord) :
    (s.placeEvent ev).eventWord = ev := rfl

theorem step_placeEvent_edge (s : State) :
    step (s.placeEvent 0b010) = .next (edgeOp Config.hw (s.placeEvent 0b010).present).nextStep := by
  apply step_of_exec
  rw [placeEvent_eventWord]
  rfl

/-- The sample and the index placed for a condition word give that word back, where a sample can
(R73, R132). -/
theorem condWord_sampleFor_indexFor (w : CondWord) (h : w.getLsbD 3 = true → w.getLsbD 2 = true) :
    condWord Config.hw (State.sampleFor (w.getLsbD 3) (w.getLsbD 2)).toNat
      (State.indexFor (w.getLsbD 1) (w.getLsbD 0)).toInt = w := by
  revert w; decide

/-! The command word: all bits but bit 0 are collected, and the last edge deposits bit 0. -/

theorem getLsbD_and_mask (w : Word) (i : Nat) :
    (w &&& 0xFFFFFFFE#32).getLsbD i = (w.getLsbD i && !decide (i = 0)) := by
  have hmask : 0xFFFFFFFE#32 = ~~~1#32 := rfl
  rw [hmask, BitVec.getLsbD_and, BitVec.getLsbD_not, BitVec.getLsbD_one]
  by_cases hi : i < 32
  · simp [hi]
  · simp [BitVec.getLsbD_of_ge w i (by omega)]

theorem and_mask_of_lastBit {w : Word} (h : w.getLsbD 0 = false) : w &&& 0xFFFFFFFE#32 = w := by
  apply BitVec.eq_of_getLsbD_eq
  intro i _
  rw [getLsbD_and_mask]
  cases i with
  | zero => rw [h, Bool.false_and]
  | succ i => simp

theorem and_mask_or_one_of_lastBit {w : Word} (h : w.getLsbD 0 = true) :
    w &&& 0xFFFFFFFE#32 ||| 1#32 = w := by
  apply BitVec.eq_of_getLsbD_eq
  intro i _
  rw [BitVec.getLsbD_or, getLsbD_and_mask, BitVec.getLsbD_one]
  cases i with
  | zero => simp [h]
  | succ i => simp

/-- At position 31 an edge with the sample placed for bit 0 of `w` completes ACC to `w` (R124,
R125). -/
theorem toWord_depositedAcc_of_placed {s : State} {w : Word} (hpi : s.piVal = 31)
    (hacc : s.acc = FourBytes.ofWord (w &&& 0xFFFFFFFE#32)) :
    (depositedAcc Config.hw (State.sampleFor false (w.getLsbD 0)).toNat s).toWord = w := by
  cases hbit : w.getLsbD 0 with
  | false =>
    rw [depositedAcc_none (.inl (by decide)), hacc, FourBytes.toWord_ofWord,
      and_mask_of_lastBit hbit]
  | true =>
    rw [depositedAcc_one (by decide) (by omega) (by omega), hpi,
      FourBytes.toWord_setBit _ (by decide), hacc, FourBytes.toWord_ofWord]
    exact and_mask_or_one_of_lastBit hbit

/-- The last data edge of a frame presents the completed ACC in CMD (R126). -/
theorem decodeGap_of_lastEdge {c : Profile} {e : Nat} {s : State} (hpi : s.piVal = 31)
    (he : e < c.tStart) :
    (decodeGap c e s).cmd = depositedAcc c e s ∧ (decodeGap c e s).cmdValid = true := by
  rcases decodeGap_cases c e s with ⟨hstart, -⟩ | ⟨-, hlt, -⟩ | ⟨-, -, hd⟩
  · omega
  · omega
  · rw [hd, completeFrame_eq]
    exact ⟨rfl, rfl⟩

/-- An EDGE at position 31, with bits 31..1 of `w` collected and the sample placed for bit 0,
completes a frame with the command word `w`. -/
theorem edgeOp_completes_placed {s : State} {w : Word} (hpi : s.piVal = 31)
    (hacc : s.acc = FourBytes.ofWord (w &&& 0xFFFFFFFE#32))
    (hcnt : s.cnt = State.sampleFor false (w.getLsbD 0)) :
    (edgeOp Config.hw s).cmd.toWord = w ∧ (edgeOp Config.hw s).cmdValid = true ∧
    (edgeOp Config.hw s).inputs = s.inputs := by
  have hbelow : s.cnt.toNat < Config.hw.tStart := by
    rw [hcnt]
    cases w.getLsbD 0 <;> decide
  have hword : (depositedAcc Config.hw s.cnt.toNat (clearStrobes s)).toWord = w := by
    rw [hcnt]
    exact toWord_depositedAcc_of_placed hpi hacc
  obtain ⟨hcmd, hvalid⟩ := decodeGap_of_lastEdge (s := clearStrobes s) hpi hbelow
  obtain ⟨-, -, -, hinputs, -⟩ := decodeGap_keeps Config.hw s.cnt.toNat (clearStrobes s)
  rw [edgeOp_eq]
  exact ⟨(congrArg FourBytes.toWord hcmd).trans hword, hvalid, hinputs⟩

theorem step_placeCmd (s : State) (w : Word) : ∃ t : State, step (s.placeCmd w) = .next t ∧
    t.cmd.toWord = w ∧ t.cmdValid = true ∧ t.inputs = s.inputs :=
  ⟨_, step_placeEvent_edge _, edgeOp_completes_placed rfl rfl rfl⟩

/-- Settles O46, by the format of the placed word. -/
theorem placedWordIsNextStepsWord : Obligations.PlacedWordIsNextStepsWord := by
  refine ⟨fun s w hw => ?event, fun s w hsample => ?cond, fun s w => ?cmd⟩
  case event =>
    rw [withFetchWord_ev s hw]
    exact ⟨placeEvent_eventWord s _, rfl⟩
  case cond =>
    rw [withFetchWord_cond]
    exact ⟨placeEvent_eventWord _ _, condWord_sampleFor_indexFor w hsample⟩
  case cmd =>
    rw [withFetchWord_cmd]
    exact step_placeCmd s w

end Sys2Proof.Machine
end

/-! SUPPORT. The tick counter (spec 40_tick_counter.md R100, R102 to R104, R107): one TICK, and a run
of the quiet operations TICK and IDLE. -/

section
namespace Sys2Proof.Machine

/-- Settles O4: TICK is one record update whose count is one tick on. -/
theorem tickCountsBelowCeiling : Obligations.TickCountsBelowCeiling := fun s =>
  ⟨tickOp Config.hw s, rfl, tickOp_eq _ s, tickedCount_toNat_of_lt (c := Config.hw) (by decide),
    tickedCount_of_ceil_le (c := Config.hw)⟩

/-- From the range of R37 a tick adds one and is cut off at the ceiling (R100, R103). -/
theorem tickedCount_toNat_eq_min {c : Profile} {n : Count} (hceil : c.ceil ≤ 63)
    (h : n.toNat ≤ c.ceil) : (tickedCount c n).toNat = min (n.toNat + 1) c.ceil := by
  rw [tickedCount_toNat c n hceil]
  split <;> omega

theorem isQuiet_iff {i : Instr} : isQuiet i = true ↔ i = .idle ∨ i = .tick := by
  simp [isQuiet]

/-- A quiet operation counts its own tick, if it is one, and writes nothing else but the strobes and
IR_PREV (R100, R176). -/
theorem exec_of_isQuiet {i : Instr} {s : State} (hquiet : isQuiet i = true)
    (hcnt : s.cnt.toNat ≤ 50) : ∃ t : State, exec i s = .next t ∧
      t = { s with cnt := t.cnt, cmdValid := false, actValid := false, irPrev := s.irIn } ∧
      t.cnt.toNat = min (s.cnt.toNat + [i].count .tick) 50 := by
  rcases isQuiet_iff.1 hquiet with rfl | rfl
  · exact ⟨idleOp s, rfl, idleOp_eq s, (min_eq_left hcnt).symm⟩
  · exact ⟨tickOp Config.hw s, rfl, tickOp_eq _ s, tickedCount_toNat_eq_min (by decide) hcnt⟩

/-- Settles O38, by induction on the run: each operation counts its own tick, and a count cut off at
the ceiling stays there. -/
theorem ticksAccumulateUpToCeiling : Obligations.TicksAccumulateUpToCeiling := by
  intro is
  induction is with
  | nil =>
    intro s _ hcnt
    exact ⟨s, rfl, (min_eq_left hcnt).symm, le_rfl, rfl, rfl, rfl, rfl, rfl⟩
  | cons i is ih =>
    intro s hquiet hcnt
    obtain ⟨hi, his⟩ := List.forall_mem_cons.1 hquiet
    obtain ⟨u, hu, hframe, hucnt⟩ := exec_of_isQuiet hi hcnt
    obtain ⟨t, ht, htcnt, hle, hpi, hacc, hcmd, hact, hevents⟩ := ih u his (by omega)
    have hcount : (i :: is).count .tick = [i].count .tick + is.count .tick :=
      List.count_append (l₁ := [i])
    rw [hframe] at hpi hacc hcmd hact hevents
    exact ⟨t, (execSeq_cons is hu).trans ht, by omega, by omega, hpi, hacc, hcmd, hact, hevents⟩

end Sys2Proof.Machine
end

/-! SUPPORT. The frame decoder (spec 41_frame_decoder.md R120 to R133): an edge is decode(e) on the
state with the gap sampled, for EDGE and EDGT alike, and decode(e) has one equation per case. -/

section
namespace Sys2Proof.Machine

theorem toWord_zero : FourBytes.zero.toWord = 0 := rfl

/-! The start of an edge. -/

/-- The state an edge decodes in: CNT restarted at `v`, the strobes cleared, the line latched (R101,
R120, R172). -/
def State.sampled (s : State) (v : Count) : State :=
  { s with cnt := v, cmdValid := false, actValid := false, irPrev := s.irIn }

@[simp] theorem sampled_piVal (s : State) (v : Count) : (s.sampled v).piVal = s.piVal := rfl

@[simp] theorem depositedAcc_sampled (c : Profile) (e : Nat) (s : State) (v : Count) :
    depositedAcc c e (s.sampled v) = depositedAcc c e s := rfl

/-- What ends an edge may as well come before decode(e), which touches neither CNT nor IR_PREV. -/
theorem latchLine_setCnt_decodeGap (c : Profile) (e : Nat) (s : State) (v : Count) :
    latchLine ((decodeGap c e (clearStrobes s)).setCnt v) = decodeGap c e (s.sampled v) := by
  rw [← decodeGap_setCnt, ← decodeGap_latchLine]
  rfl

/-- EDGE decodes the gap held in CNT (R120). -/
theorem edgeOp_eq_decodeGap (c : Profile) (s : State) :
    edgeOp c s = decodeGap c s.cnt.toNat (s.sampled 0) := by
  rw [edgeOp_eq, latchLine_setCnt_decodeGap]

theorem exec_edge (s : State) :
    exec .edge s = .next (decodeGap Config.hw s.cnt.toNat (s.sampled 0)) :=
  congrArg Host.Outcome.next (edgeOp_eq_decodeGap Config.hw s)

/-- EDGT of this hardware decodes the same gap; its tick is counted afterwards (R131). -/
theorem exec_edgt (s : State) :
    exec .edgt s = .next (decodeGap Config.hw s.cnt.toNat (s.sampled 1)) :=
  congrArg Host.Outcome.next (latchLine_setCnt_decodeGap Config.hw s.cnt.toNat s 1)

/-! The three cases of decode(e). -/

theorem decodeGap_of_start {c : Profile} {e : Nat} {s : State} (he : c.tStart ≤ e) :
    decodeGap c e s = startFrame s :=
  if_pos (isStart_iff.2 he)

theorem decodeGap_of_inside {c : Profile} {e : Nat} {s : State} (v : Count) (he : e < c.tStart)
    (hpi : s.piVal + 1 < 32) : decodeGap c e (s.sampled v) =
      { s.sampled v with pi := BitVec.ofInt 8 (s.piVal + 1), acc := depositedAcc c e s } := by
  rcases decodeGap_cases c e (s.sampled v) with ⟨hstart, -⟩ | ⟨-, -, hd⟩ | ⟨-, hend, -⟩
  · omega
  · exact hd
  · rw [sampled_piVal] at hend
    omega

/-- A completion overwrites the incremented index, so only the deposit is left of the edge. -/
theorem decodeGap_of_end {c : Profile} {e : Nat} {s : State} (v : Count) (he : e < c.tStart)
    (hpi : 32 ≤ s.piVal + 1) : decodeGap c e (s.sampled v) =
      completeFrame { s.sampled v with acc := depositedAcc c e s } := by
  rcases decodeGap_cases c e (s.sampled v) with ⟨hstart, -⟩ | ⟨-, hlt, -⟩ | ⟨-, -, hd⟩
  · omega
  · rw [sampled_piVal] at hlt
    omega
  · exact hd.trans (completeFrame_setPi { s.sampled v with acc := depositedAcc c e s } _)

/-! An EDGE, case by case. -/

/-- Settles O5: the sample is a start marker. -/
theorem edgeWithLongGapResyncs : Obligations.EdgeWithLongGapResyncs := by
  intro s hcnt
  rw [exec_edge, decodeGap_of_start (c := Config.hw) hcnt]
  rfl

/-- An EDGE inside a frame leaves the deposit of its sample in ACC and advances PI (R123 to R125). -/
theorem exec_edge_of_inside {s : State} (hcnt : s.cnt.toNat < 50) (hpi : s.piVal + 1 < 32) :
    exec .edge s = .next
      { s with
        cnt := 0, pi := BitVec.ofInt 8 (s.piVal + 1),
        acc := depositedAcc Config.hw s.cnt.toNat s,
        cmdValid := false, actValid := false, irPrev := s.irIn } := by
  rw [exec_edge, decodeGap_of_inside (c := Config.hw) 0 hcnt hpi]
  rfl

/-- Settles O6: at a negative PI there is nothing to deposit. -/
theorem edgeInHeaderIsDiscarded : Obligations.EdgeInHeaderIsDiscarded := by
  intro s hcnt hpi
  have hneg : s.piVal < 0 := hpi
  rw [exec_edge_of_inside hcnt (by omega), depositedAcc_none (.inr (.inl hneg))]
  rfl

/-- COMPLETE on its own is the completion; it writes both strobes, so clearing them first is nothing
(log entry 7). -/
theorem exec_complete (o r : Bool) (s : State) :
    exec (.complete o r) s = .next (completeFrame s) :=
  congrArg Host.Outcome.next (completeFrame_clearStrobes s)

/-- An EDGE whose incremented index reaches 32 is COMPLETE after its deposit; COMPLETE overwrites PI,
so the index `v` before it may be any (R126, R127). -/
theorem exec_edge_of_end {s : State} (o r : Bool) (v : PulseIndex) (hcnt : s.cnt.toNat < 50)
    (hpi : 32 ≤ s.piVal + 1) : exec .edge s = exec (.complete o r)
      { s with
        cnt := 0, pi := v, acc := depositedAcc Config.hw s.cnt.toNat s,
        cmdValid := false, actValid := false, irPrev := s.irIn } := by
  rw [exec_edge, decodeGap_of_end (c := Config.hw) 0 hcnt hpi, exec_complete]
  exact congrArg Host.Outcome.next (completeFrame_setPi _ v).symm

/-- An EDGE at a data position, by whether it is the last one; `a` is ACC after the deposit. -/
theorem exec_edge_of_data {s : State} {a : FourBytes} (o r : Bool) (hcnt : s.cnt.toNat < 50)
    (ha : depositedAcc Config.hw s.cnt.toNat s = a) :
    let t : State :=
      { s with
        cnt := 0, pi := BitVec.ofInt 8 (s.pi.toInt + 1), acc := a,
        cmdValid := false, actValid := false, irPrev := s.irIn }
    (s.pi.toInt < 31 → exec .edge s = .next t) ∧
    (s.pi.toInt = 31 → ∃ u, exec (.complete o r) t = .next u ∧ exec .edge s = .next u) := by
  subst ha
  refine ⟨fun hlt => exec_edge_of_inside hcnt ?_, fun hlast => ?_⟩
  · rw [State.piVal]
    omega
  · rw [exec_edge_of_end o r (BitVec.ofInt 8 (s.pi.toInt + 1)) hcnt (by rw [State.piVal]; omega)]
    exact ⟨_, exec_complete _ _ _, exec_complete _ _ _⟩

/-- Settles O7: a sample below T_BIT deposits nothing. -/
theorem edgeLogicZero : Obligations.EdgeLogicZero := by
  intro s hcnt _ _
  exact exec_edge_of_data false true (by omega) (depositedAcc_none (.inl hcnt))

/-- Settles O8: the 32-bit view determines ACC, and the deposit is bit 31 − p of it. -/
theorem edgeLogicOne : Obligations.EdgeLogicOne := by
  intro s a hone hcnt hlo hhi ha
  have hdeposit : depositedAcc Config.hw s.cnt.toNat s = a := by
    rw [depositedAcc_one hone hlo hhi, ← FourBytes.toWord_inj, ha]
    exact FourBytes.toWord_setBit _ (by rw [State.piVal]; omega)
  exact exec_edge_of_data true true hcnt hdeposit

/-- Settles O9: from 32 on the edge is the end of a frame with no deposit; the other two clauses hold
for more indices than the unreachable ones. -/
theorem edgeOutsideIndexRange : Obligations.EdgeOutsideIndexRange := by
  intro s
  refine ⟨fun hcnt hpi => ?above, fun hcnt hpi => ?below, edgeWithLongGapResyncs s⟩
  case above =>
    have hhi : 32 ≤ s.piVal := hpi
    refine ⟨_, exec_complete _ _ _, ?_⟩
    rw [exec_edge_of_end true false s.pi hcnt (by omega), depositedAcc_none (.inr (.inr hhi)),
      exec_complete]
    exact congrArg Host.Outcome.next
      (completeFrame_clearStrobes { s with cnt := 0, irPrev := s.irIn })
  case below => exact edgeInHeaderIsDiscarded s hcnt (by omega)

/-! EDGT, and an edge under every legal profile. -/

/-- Settles O14: EDGE and EDGT differ in what CNT restarts at, and decode(e) does not read it. -/
theorem edgtIsEdgeThenTick : Obligations.EdgtIsEdgeThenTick := by
  intro s
  refine ⟨_, exec_edge s, (exec_edgt s).trans ?_⟩
  exact congrArg Host.Outcome.next (decodeGap_setCnt Config.hw s.cnt.toNat (s.sampled 0) 1)

/-- An EDGT is decode(e) of CNT with CNT restarting at 1, or of the count after one tick with CNT
restarting at 0, as SIMUL_ORDER says (R59, R131). -/
theorem edgtOp_cases (c : Profile) (s : State) :
    (c.simulOrder = .edgeFirst ∧ edgtOp c s = decodeGap c s.cnt.toNat (s.sampled 1)) ∨
    (c.simulOrder = .tickFirst ∧
      edgtOp c s = decodeGap c (tickedCount c s.cnt).toNat (s.sampled 0)) := by
  unfold edgtOp
  cases c.simulOrder with
  | edgeFirst => exact .inl ⟨rfl, latchLine_setCnt_decodeGap c _ s 1⟩
  | tickFirst => exact .inr ⟨rfl, latchLine_setCnt_decodeGap c _ s 0⟩

/-- The sample an EDGT takes under tick_first reaches T_START from one tick below it on (R59, R133). -/
theorem tStart_le_tickedCount {c : Profile} {n : Count} (hc : c.wf = true)
    (h : c.tStart ≤ n.toNat + 1) : c.tStart ≤ (tickedCount c n).toNat := by
  obtain ⟨-, -, hstartCeil, hceil⟩ := Profile.wf_iff.1 hc
  rw [tickedCount_toNat c n hceil]
  split <;> omega

/-- An EDGT whose sample reaches T_START is a start marker, in either order (R131, R133). -/
theorem edgtOp_of_longGap {c : Profile} {s : State} (hc : c.wf = true)
    (h : c.tStart ≤ s.cnt.toNat ∨ (c.simulOrder = .tickFirst ∧ c.tStart = s.cnt.toNat + 1)) :
    ∃ v : Count, edgtOp c s = startFrame (s.sampled v) ∧
      (v = 0 ∨ (c.simulOrder = .edgeFirst ∧ v = 1)) := by
  rcases edgtOp_cases c s with ⟨horder, hedgt⟩ | ⟨-, hedgt⟩
  · have hstart : c.tStart ≤ s.cnt.toNat := by simpa [horder] using h
    exact ⟨1, hedgt.trans (decodeGap_of_start hstart), .inr ⟨horder, rfl⟩⟩
  · exact ⟨0, hedgt.trans (decodeGap_of_start (tStart_le_tickedCount hc (by omega))), .inl rfl⟩

/-- Every edge of R133 is a start marker; it restarts CNT at 0, or at 1 in an EDGT under edge_first. -/
theorem exists_startFrame_of_longGap {c : Profile} {s t : State} (hc : c.wf = true)
    (h : (t = edgeOp c s ∧ c.tStart ≤ s.cnt.toNat) ∨ (t = edgtOp c s ∧ c.tStart ≤ s.cnt.toNat) ∨
      (t = edgtOp c s ∧ c.simulOrder = .tickFirst ∧ c.tStart = s.cnt.toNat + 1)) :
    ∃ v : Count, t = startFrame (s.sampled v) ∧
      (v = 0 ∨ (t = edgtOp c s ∧ c.simulOrder = .edgeFirst ∧ v = 1)) := by
  rw [← and_or_left] at h
  rcases h with ⟨rfl, hstart⟩ | ⟨rfl, hlong⟩
  · exact ⟨0, by rw [edgeOp_eq_decodeGap, decodeGap_of_start hstart], .inl rfl⟩
  · obtain ⟨v, hedgt, hv⟩ := edgtOp_of_longGap hc hlong
    exact ⟨v, hedgt, hv.imp_right fun hfirst => ⟨rfl, hfirst⟩⟩

/-- Settles O16: a start marker overwrites PI and ACC and leaves the rest of the sampled state. -/
theorem resyncIgnoresPriorState : Obligations.ResyncIgnoresPriorState := by
  intro c s t hc h
  obtain ⟨v, ht, hv⟩ := exists_startFrame_of_longGap hc h
  have hcnt : t.cnt = v := ht ▸ rfl
  rw [← hcnt] at hv
  subst ht
  exact ⟨rfl, toWord_zero, rfl, rfl, hv, rfl, rfl, rfl, rfl⟩

end Sys2Proof.Machine
end

/-! SUPPORT. The sub-operations as operations of their own (log entry 7; spec 41_frame_decoder.md
R122 to R126; 42_command_lookup.md R151, R154). -/

section
namespace Sys2Proof.Machine

/-- Settles O10: each is one record update by definition. -/
theorem subOperationsWithoutBit : Obligations.SubOperationsWithoutBit :=
  ⟨fun _ _ _ _ => rfl, fun _ _ => rfl, fun _ _ => rfl⟩

/-- Settles O11: the 32-bit view determines ACC, and BIT1 deposits bit 31 − p of it at a data
position. -/
theorem subOperationSetsBit : Obligations.SubOperationSetsBit := by
  intro l s a ha
  have hdeposit : (if inData s.piVal then s.acc.setBit s.piVal.toNat else s.acc) = a := by
    rw [← FourBytes.toWord_inj, ha]
    by_cases hdata : 0 ≤ s.piVal ∧ s.piVal < 32
    · rw [if_pos (inData_iff.2 hdata), FourBytes.toWord_setBit _ (by omega)]
      exact (if_pos hdata).symm
    · rw [if_neg (mt inData_iff.1 hdata)]
      exact (if_neg hdata).symm
  have hbit1 : exec (.bit1 l) s =
      .next (advanceIndex (depositBit s.piVal (clearStrobes s))) := rfl
  rw [hbit1, depositBit_eq, ← hdeposit]
  rfl

/-- The lookup with the code beside each action (R78, R151). -/
theorem map_code_lookupKey (b1 b2 b3 : Byte) :
    (lookupKey b1 b2 b3).map (fun a => (a, a.code)) =
      if (b1 ++ b2 ++ b3 : BitVec 24) = 0xFF18E7 then some (.up, 0)
      else if (b1 ++ b2 ++ b3 : BitVec 24) = 0xFF10EF then some (.left, 1)
      else if (b1 ++ b2 ++ b3 : BitVec 24) = 0xFF5AA5 then some (.right, 2)
      else if (b1 ++ b2 ++ b3 : BitVec 24) = 0xFF4AB5 then some (.down, 3)
      else none := by
  simp only [lookupKey_eq, apply_ite (Option.map _), Option.map_some, Option.map_none, Action.code]

/-- Settles O12: the completion by the two outcomes of its lookup. -/
theorem completeSnapshotsDispatchesLooksUp : Obligations.CompleteSnapshotsDispatchesLooksUp := by
  intro o r s k hit
  have hhit : hit = (lookupKey s.acc.b1 s.acc.b2 s.acc.b3).map fun a => (a, a.code) :=
    (map_code_lookupKey _ _ _).symm
  rw [exec_complete, hhit]
  cases h : lookupKey s.acc.b1 s.acc.b2 s.acc.b3 with
  | none =>
    rw [completeFrame_of_no_match h]
    rfl
  | some a =>
    rw [completeFrame_of_match h]
    rfl

/-- The command decoder on the four bytes of a frame (R51, R78, R79). -/
theorem decodeCmd_toWord (f : FourBytes) : decodeCmd f.toWord =
    (lookupKey f.b1 f.b2 f.b3).elim (.noMatch f.toWord) fun a => a.row f.b0 := by
  obtain ⟨h0, h1, h2, h3⟩ := FourBytes.mk.inj f.ofWord_toWord
  rw [decodeCmd, h0, h1, h2, h3]
  cases lookupKey f.b1 f.b2 f.b3 with
  | none => rfl
  | some a => cases a <;> rfl

/-- Settles O18: the command word selects the row of the action looked up, or NO_MATCH. -/
theorem completeRunsItsCommandWord : Obligations.CompleteRunsItsCommandWord := by
  intro o r s
  rw [exec_complete, decodeCmd_toWord]
  cases h : lookupKey s.acc.b1 s.acc.b2 s.acc.b3 with
  | none =>
    rw [completeFrame_of_no_match h]
    rfl
  | some a =>
    rw [completeFrame_of_match h, Option.elim_some, exec_row, List.append_assoc]
    rfl

end Sys2Proof.Machine
end

/-! SUPPORT. Frames over a run (spec 41_frame_decoder.md R129, R134; 30_encoding.md R75, R76;
70_reset_and_hazards.md R223, R234): a stalled frame and the edge after it, and a row of gaps from a
start marker on. -/

section
namespace Sys2Proof.Machine

/-- Settles O40: the quiet run moves CNT alone, and the edge after it is a start marker, inside the
frame or its end. -/
theorem stalledFrameWaitsForLongGap : Obligations.StalledFrameWaitsForLongGap := by
  rintro is s hquiet ⟨hcnt, ⟨hlo, hhi⟩, -⟩
  obtain ⟨u, hu, hucnt, -, hpi, hacc, -, -, hevents⟩ := ticksAccumulateUpToCeiling is s hquiet hcnt
  have hpiVal : u.piVal = s.piVal := congrArg BitVec.toInt hpi
  refine ⟨u, _, hu, exec_edge u, hpi, hacc, hevents, fun hlong => ?discard, fun hshort => ?goOn⟩
  case discard =>
    have hstart : Config.hw.tStart ≤ u.cnt.toNat := by rw [hw_tStart]; omega
    rw [decodeGap_of_start hstart]
    exact ⟨rfl, toWord_zero, hevents⟩
  case goOn =>
    have hbelow : u.cnt.toNat < Config.hw.tStart := by rw [hw_tStart]; omega
    by_cases hlast : s.piVal = 31
    · rw [decodeGap_of_end 0 hbelow (by omega)]
      exact ⟨(completeFrame_piVal _).trans (if_pos hlast).symm, fun hlt => absurd hlast hlt.ne⟩
    · rw [decodeGap_of_inside 0 hbelow (by omega)]
      refine ⟨?_, fun _ => ⟨hevents, fun p _ hp => ?_⟩⟩
      · refine (State.toInt_ofInt_of_range ?_ ?_).trans ?_
        · omega
        · omega
        · rw [hpiVal]
          exact (if_neg hlast).symm
      · exact (bitAt_depositedAcc_of_ne _ _ (hpiVal ▸ hp)).trans (congrArg (·.bitAt p) hacc)

/-! One gap. -/

/-- The edge of a gap decodes the count it finds and leaves the gap's own (R104, R131). -/
theorem exec_edgeOfGap (b : Bool) (s : State) :
    exec (if b then .edgt else .edge) s = .next (decodeGap Config.hw s.cnt.toNat
      (s.sampled (BitVec.ofNat 6 (Gap.left ⟨0, b⟩)))) := by
  cases b with
  | false => exact exec_edge s
  | true => exact exec_edgt s

/-- A gap of `n` ticks is one decode(e), of the count before it and its ticks together: the ticks
change nothing else that decode(e) of the sampled state sees (R104, R120). -/
theorem execSeq_gapOps (n : Nat) (b : Bool) {s : State} (h : s.cnt.toNat + n ≤ 50) :
    execSeq (Gap.ops ⟨n, b⟩) s = .next (decodeGap Config.hw (s.cnt.toNat + n)
      (s.sampled (BitVec.ofNat 6 (Gap.left ⟨n, b⟩)))) := by
  induction n generalizing s with
  | zero => exact execSeq_cons [] (exec_edgeOfGap b s)
  | succ n ih =>
    have htick : exec .tick s = .next (tickOp Config.hw s) := rfl
    have hcnt : (tickOp Config.hw s).cnt.toNat = s.cnt.toNat + 1 :=
      tickedCount_toNat_of_lt (by decide) (by rw [hw_ceil]; omega)
    have hops : Gap.ops ⟨n + 1, b⟩ = .tick :: Gap.ops ⟨n, b⟩ := rfl
    rw [hops, execSeq_cons _ htick, ih (by omega), hcnt, Nat.add_right_comm]
    rfl

theorem gapLeft_toNat (g : Gap) : (BitVec.ofNat 6 g.left).toNat = g.left := by
  unfold Gap.left
  split <;> rfl

theorem decodeGap_sampled_cnt (e : Nat) {s : State} (g : Gap) :
    (decodeGap Config.hw e (s.sampled (BitVec.ofNat 6 g.left))).cnt.toNat = g.left := by
  obtain ⟨hcnt, -⟩ := decodeGap_keeps Config.hw e (s.sampled (BitVec.ofNat 6 g.left))
  rw [hcnt]
  exact gapLeft_toNat g

/-- One more gap at the end of a row that leaves the count `c` (R104). -/
theorem execSeq_append_gap {gs : List Gap} {g : Gap} {s t : State} {c : Nat}
    (ht : execSeq (gs.flatMap Gap.ops) s = .next t) (hcnt : t.cnt.toNat = c)
    (h : c + g.ticks ≤ 50) :
    execSeq ((gs ++ [g]).flatMap Gap.ops) s = .next
      (decodeGap Config.hw (c + g.ticks) (t.sampled (BitVec.ofNat 6 g.left))) := by
  subst hcnt
  rw [List.flatMap_append, List.flatMap_singleton, execSeq_append, ht]
  exact execSeq_gapOps g.ticks g.atEdge h

/-! The frame collected from a row of samples. -/

/-- A deposit at position PI, bit by bit (R125). -/
theorem bitAt_depositedAcc (c : Profile) (e : Nat) (s : State) {p : Nat} (hp : p < 32) :
    (depositedAcc c e s).bitAt p =
      (s.acc.bitAt p || (decide ((p : Int) = s.piVal) && decide (c.tBit ≤ e))) := by
  by_cases hpi : (p : Int) = s.piVal
  · have hpos : s.piVal.toNat = p := by omega
    by_cases hone : c.tBit ≤ e
    · rw [depositedAcc_one hone (by omega) (by omega), hpos, FourBytes.bitAt_setBit _ hp]
      simp [hpi, hone]
    · rw [depositedAcc_none (.inl (by omega))]
      simp [hone]
  · rw [bitAt_depositedAcc_of_ne c e hpi]
    simp [hpi]

/-- `t` holds what the samples `es` give, taken from a start marker on, the two header samples first:
PI, and at each data position the bit of its sample (0 where there is none yet, R26). The outputs are
those of `s` (R75, R134). -/
structure State.Collects (s : State) (es : List Nat) (t : State) : Prop where
  index : t.piVal = (es.length : Int) - 2
  bits : ∀ p : Nat, p < 32 → t.acc.bitAt p = decide (2 ≤ es.getD (p + 2) 0)
  cmd : t.cmd = s.cmd
  events : t.events = s.events
  stepNo : t.stepNo = s.stepNo

/-- Right after a start marker nothing is collected (R122). -/
theorem collects_nil {s : State} (hpi : s.piVal = -2) (hacc : s.acc.toWord = 0) :
    s.Collects [] s := by
  refine ⟨hpi, fun p hp => ?_, rfl, rfl, rfl⟩
  rw [FourBytes.bitAt_eq_toWord _ hp, hacc]
  simp

/-- The sample of the next edge is deposited behind those collected (R125). -/
theorem bitAt_depositedAcc_of_collects {s t : State} {es : List Nat} (h : s.Collects es t)
    (e : Nat) {p : Nat} (hp : p < 32) :
    (depositedAcc Config.hw e t).bitAt p = decide (2 ≤ (es ++ [e]).getD (p + 2) 0) := by
  rw [bitAt_depositedAcc _ _ _ hp, h.bits p hp, h.index, hw_tBit]
  rcases Nat.lt_trichotomy (p + 2) es.length with hlt | heq | hgt
  · rw [List.getD_append _ _ _ _ hlt]
    simp [show ¬ (p : Int) = es.length - 2 by omega]
  · rw [List.getD_append_right _ _ _ _ heq.ge, List.getD_eq_default _ _ heq.ge]
    simp [show (p : Int) = es.length - 2 by omega, heq]
  · have hout : (es ++ [e]).length ≤ p + 2 := by
      rw [List.length_append, List.length_singleton]
      omega
    rw [List.getD_eq_default _ _ hgt.le, List.getD_eq_default _ _ hout]
    simp [show ¬ (p : Int) = es.length - 2 by omega]

/-- An edge before the last one of the frame collects its sample (R123 to R125). -/
theorem collects_decodeGap {s t : State} {es : List Nat} (h : s.Collects es t) {e : Nat}
    (v : Count) (he : e < 50) (hlen : es.length < 33) :
    s.Collects (es ++ [e]) (decodeGap Config.hw e (t.sampled v)) := by
  have hindex := h.index
  rw [decodeGap_of_inside v (show e < Config.hw.tStart from he) (by omega)]
  refine ⟨?_, fun p hp => bitAt_depositedAcc_of_collects h e hp, h.cmd, h.events, h.stepNo⟩
  rw [List.length_append, List.length_singleton]
  refine (State.toInt_ofInt_of_range ?_ ?_).trans ?_ <;> omega

/-- A row of fewer than 34 gaps collects its samples, by induction from its last gap on (R134). -/
theorem execSeq_row_collects {s : State} (h : s.Collects [] s) (gs : List Gap)
    (hlen : gs.length < 34) (hbelow : ∀ e ∈ gapSamples s.cnt.toNat gs, e < 50) :
    ∃ t : State, execSeq (gs.flatMap Gap.ops) s = .next t ∧
      t.cnt.toNat = countAfter s.cnt.toNat gs ∧ s.Collects (gapSamples s.cnt.toNat gs) t := by
  induction gs using List.reverseRecOn with
  | nil => exact ⟨s, rfl, rfl, h⟩
  | append_singleton gs g ih =>
    rw [gapSamples_append_singleton, List.forall_mem_append, List.forall_mem_singleton] at hbelow
    obtain ⟨hrow, hlast⟩ := hbelow
    rw [List.length_append, List.length_singleton] at hlen
    obtain ⟨t, ht, hcnt, hcollects⟩ := ih (by omega) hrow
    refine ⟨_, execSeq_append_gap ht hcnt (by omega), ?_, ?_⟩
    · rw [countAfter_append_singleton]
      exact decodeGap_sampled_cnt _ _
    · rw [gapSamples_append_singleton]
      exact collects_decodeGap hcollects _ hlast (by rw [gapSamples_length]; omega)

/-! The end of the frame. -/

@[simp] theorem completeFrame_cmd (s : State) : (completeFrame s).cmd = s.acc := by
  rw [completeFrame_eq]

/-- A completion emits its Dispatch and at most one Action (R126, R151, R154). -/
theorem exists_completeFrame_events (s : State) : ∃ as : List Action, as.length ≤ 1 ∧
    (completeFrame s).events = s.events ++
      (s.stepNo, .dispatch (completeFrame s).cmd.b0 (completeFrame s).cmd.b1
        (completeFrame s).cmd.b2 (completeFrame s).cmd.b3)
        :: as.map fun a => (s.stepNo, .action a) := by
  cases h : lookupKey s.acc.b1 s.acc.b2 s.acc.b3 with
  | none =>
    rw [completeFrame_of_no_match h]
    exact ⟨[], Nat.zero_le 1, rfl⟩
  | some a =>
    rw [completeFrame_of_match h]
    exact ⟨[a], le_rfl, rfl⟩

/-- Settles O42: the row collects its samples and has not reached the end of the frame. -/
theorem shortFrameDoesNotComplete : Obligations.ShortFrameDoesNotComplete := by
  intro gs s hlen hbelow hpi hacc
  obtain ⟨t, ht, hcnt, h⟩ := execSeq_row_collects (collects_nil hpi hacc) gs hlen hbelow
  refine ⟨t, ht, hcnt, ?_, h.cmd, h.events⟩
  rw [← gapSamples_length gs s.cnt.toNat]
  exact h.index

/-- Settles O43: the first 33 gaps collect their samples, and the 34th completes the frame with its
own sample deposited. -/
theorem frameOf34EdgesDispatchesItsBits : Obligations.FrameOf34EdgesDispatchesItsBits := by
  intro gs s hlen hbelow hpi hacc
  obtain ⟨gs, g, rfl⟩ : ∃ hs g, gs = hs ++ [g] :=
    ⟨_, _, (List.dropLast_append_getLast (List.ne_nil_of_length_pos (by omega))).symm⟩
  rw [gapSamples_append_singleton, List.forall_mem_append, List.forall_mem_singleton] at hbelow
  obtain ⟨hrow, hlast⟩ := hbelow
  rw [List.length_append, List.length_singleton] at hlen
  obtain ⟨t, ht, hcnt, h⟩ := execSeq_row_collects (collects_nil hpi hacc) gs (by omega) hrow
  have hindex := h.index
  rw [gapSamples_length] at hindex
  rw [gapSamples_append_singleton, countAfter_append_singleton]
  refine ⟨_, execSeq_append_gap ht hcnt (by omega), decodeGap_sampled_cnt _ _, ?_⟩
  rw [decodeGap_of_end _ (show _ < Config.hw.tStart from hlast) (by omega)]
  refine ⟨completeFrame_piVal _, ?acc, completeFrame_cmdValid _, fun p hp => ?bits, ?events⟩
  case acc => rw [completeFrame_acc, toWord_zero]
  case bits =>
    rw [← FourBytes.bitAt_eq_toWord _ hp, completeFrame_cmd]
    exact bitAt_depositedAcc_of_collects h _ hp
  case events =>
    rw [← h.events, ← h.stepNo]
    exact exists_completeFrame_events _

end Sys2Proof.Machine
end

/-! SUPPORT. Byte 0 has no influence on the lookup (spec 42_command_lookup.md R155; 30_encoding.md
R77): the key of the lookup is bytes 1 to 3, so two completions whose ACC differ in byte 0 alone
differ in what shows byte 0, which is CMD[0] and the Dispatch event. -/

section
namespace Sys2Proof.Machine

/-- The events after the Dispatch of a completion: the Action of the row that the key, bytes 1 to 3
of ACC, selects, if it selects one (R151, R153, R154). -/
def actionEvents (s : State) : List (Nat × Event) :=
  (lookupKey s.acc.b1 s.acc.b2 s.acc.b3).toList.map fun a => (s.stepNo, .action a)

theorem completeFrame_events (s : State) :
    (completeFrame s).events =
      s.events ++ (s.stepNo, .dispatch s.acc.b0 s.acc.b1 s.acc.b2 s.acc.b3) :: actionEvents s := by
  rw [completeFrame_eq]
  rfl

/-- Byte 0 of ACC reaches no register but CMD[0] (R155, R77). -/
theorem completeFrame_with_acc_b0 (s : State) (b : Byte) :
    completeFrame { s with acc := { s.acc with b0 := b } } =
      { completeFrame s with
        cmd := { (completeFrame s).cmd with b0 := b }
        events := (completeFrame { s with acc := { s.acc with b0 := b } }).events } := by
  simp only [completeFrame_eq]

/-- Settles O24: both states have one key, hence one lookup result and one list of events after the
Dispatch. -/
theorem byteZeroNeverInspected : Obligations.ByteZeroNeverInspected := by
  intro o r s b
  refine ⟨_, _, exec_complete o r _, exec_complete o r _, completeFrame_with_acc_b0 s b,
    actionEvents s, completeFrame_events s, ?_⟩
  have hkey : actionEvents { s with acc := { s.acc with b0 := b } } = actionEvents s := rfl
  rw [completeFrame_events, hkey]

end Sys2Proof.Machine
end

/-! SUPPORT. One step and its pins (spec 43_step_and_pins.md R172 to R179; 10_state.md R27;
60_exceptions.md R190): the input a step takes, the falling-edge detector, the length of a strobe, and
IDLE, which every operation of the event word absorbs. -/

section
namespace Sys2Proof.Machine

/-! RESET and IDLE. -/

/-- Settles O1: RESET is the reset state but for the model's own fields, and does not see the two
bits. -/
theorem resetWritesEveryRegister : Obligations.ResetWritesEveryRegister :=
  fun _ _ s => congrArg Host.Outcome.next (resetOp_eq s)

theorem exec_idle (s : State) : exec .idle s = .next (idleOp s) := rfl

/-- Settles O3: IDLE is one record update. -/
theorem idleClearsOnlyStrobes : Obligations.IdleClearsOnlyStrobes :=
  fun s => (exec_idle s).trans (congrArg Host.Outcome.next (idleOp_eq s))

/-! The input of a step. -/

theorem present_eq (s : State) : s.present =
    { s with irIn := lineLevel s.nextInput, inputs := s.inputs.tail } := rfl

theorem nextInput_of_cons {s : State} {x : Input} {xs : List Input} (h : s.inputs = x :: xs) :
    s.nextInput = x := by
  rw [State.nextInput, h]

theorem nextInput_of_nil {s : State} (h : s.inputs = []) :
    s.nextInput = Config.freeInput s.stepNo := by
  rw [State.nextInput, h]

theorem present_of_cons {s : State} {x : Input} {xs : List Input} (h : s.inputs = x :: xs) :
    s.present = { s with irIn := lineLevel x, inputs := xs } := by
  rw [present_eq, nextInput_of_cons h, h, List.tail_cons]

/-- With nothing listed the list stays empty, and only the line is driven (log entry 2). -/
theorem present_of_nil {s : State} (h : s.inputs = []) :
    s.present = { s with irIn := lineLevel (Config.freeInput s.stepNo) } := by
  have hinputs : s.inputs.tail = s.inputs := by rw [h, List.tail_nil]
  rw [present_eq, nextInput_of_nil h, hinputs]

theorem eventWord_of_cons {s : State} {x : Input} {xs : List Input} (h : s.inputs = x :: xs) :
    s.eventWord = eventWordOf s.irPrev x := by
  rw [State.eventWord, nextInput_of_cons h]

/-- At the pin level the event word is `{rst, edge, tick}`, the middle bit from the detector (R172,
R173). -/
theorem eventWordOf_pins (irPrev rst tick irIn : Bool) :
    eventWordOf irPrev (.pins rst tick irIn) =
      BitVec.ofBool rst ++ BitVec.ofBool (irPrev && !irIn) ++ BitVec.ofBool tick := rfl

theorem eventWordOf_event (irPrev : Bool) (ev : EventWord) :
    eventWordOf irPrev (.event ev) = ev := rfl

/-- The line of an event-level step is low in an EDGE or EDGT and high otherwise (R92; log
entry 4). -/
theorem lineLevel_event (ev : EventWord) :
    lineLevel (.event ev) = !decide (decodeEv ev = .edge ∨ decodeEv ev = .edgt) := by
  revert ev; decide

/-! A step as the operation of its input, whichever kind the input is. -/

/-- The input listed first is the one a step takes (R173, R174). -/
theorem step_of_cons {s : State} {x : Input} {xs : List Input} (h : s.inputs = x :: xs) :
    ∃ t : State, exec (decodeEv (eventWordOf s.irPrev x))
        { s with irIn := lineLevel x, inputs := xs } = .next t ∧ step s = .next t.nextStep := by
  rw [← eventWord_of_cons h, ← present_of_cons h]
  obtain ⟨t, ht⟩ := exec_next (decodeEv s.eventWord) s.present
  exact ⟨t, ht, step_of_exec ht⟩

/-- Settles O25: a listed input of either kind is taken by one lemma; without one, the step takes the
free input. -/
theorem stepRunsDecodedOperation : Obligations.StepRunsDecodedOperation := by
  refine ⟨fun s rst tick irIn xs h => ?pins, fun s ev xs h => ?event, fun s h => ?free⟩
  case pins =>
    have hstep := step_of_cons h
    rw [eventWordOf_pins] at hstep
    exact hstep
  case event =>
    have hstep := step_of_cons h
    rw [eventWordOf_event, lineLevel_event] at hstep
    exact hstep
  case free => rw [step, State.eventWord, nextInput_of_nil h, present_of_nil h]

/-- A step is numbered on and takes one input (R12, R174). -/
theorem step_stepNo_inputs {s t : State} (h : step s = .next t) :
    t.stepNo = s.stepNo + 1 ∧ t.inputs = s.inputs.tail := by
  obtain ⟨u, hu, rfl⟩ := exec_of_step h
  obtain ⟨-, hinputs, hstepNo⟩ := exec_keeps _ _ _ hu
  exact ⟨congrArg (· + 1) hstepNo, hinputs⟩

/-- Settles O26: the operation of the step has a next state, and so has the step. -/
theorem everyStepHasNextState : Obligations.EveryStepHasNextState := by
  intro s
  obtain ⟨u, hu⟩ := exec_next (decodeEv s.eventWord) s.present
  have hstep := step_of_exec hu
  exact ⟨u.nextStep, hstep, step_stepNo_inputs hstep⟩

/-! The falling-edge detector. -/

/-- The three bits of an event word (R70). -/
theorem getLsbD_eventWord (rst edge tick : Bool) :
    let w : EventWord := BitVec.ofBool rst ++ BitVec.ofBool edge ++ BitVec.ofBool tick
    w.getLsbD 2 = rst ∧ w.getLsbD 1 = edge ∧ w.getLsbD 0 = tick := by
  revert rst edge tick; decide

/-- The event word of a pin-level step is made of its two strobes and the detector's output (R172,
R173). -/
theorem eventWord_of_pins {s : State} {rst tick irIn : Bool} {xs : List Input}
    (h : s.inputs = .pins rst tick irIn :: xs) :
    s.eventWord.getLsbD 2 = rst ∧ s.eventWord.getLsbD 1 = (s.irPrev && !irIn) ∧
    s.eventWord.getLsbD 0 = tick := by
  rw [eventWord_of_cons h, eventWordOf_pins]
  exact getLsbD_eventWord rst (s.irPrev && !irIn) tick

/-- Every step samples the line into IR_PREV, but RESET writes 1 (R172, R175). -/
theorem step_irPrev {s t : State} (h : step s = .next t) :
    t.irPrev = (s.eventWord.getLsbD 2 || lineLevel s.nextInput) := by
  rcases step_cases h with ⟨hrst, rfl⟩ | ⟨hrst, -, rfl | rfl⟩ | ⟨hrst, -, v, -, rfl⟩ <;> rw [hrst]
  case inl | inr.inl.inl | inr.inl.inr => rfl
  case inr.inr =>
    obtain ⟨-, -, hline, -⟩ := decodeGap_keeps Config.hw s.cnt.toNat (clearStrobes s.present)
    exact hline

/-- Settles O28: the event word has the detector's output as its edge bit, and the step samples the
line. -/
theorem edgeDetectorFollowsLine : Obligations.EdgeDetectorFollowsLine := by
  intro s rst tick irIn xs h
  obtain ⟨hrst, hedge, htick⟩ := eventWord_of_pins h
  obtain ⟨t, hstep, -⟩ := everyStepHasNextState s
  have hiff : s.eventWord.getLsbD 1 = true ↔ s.irPrev = true ∧ irIn = false := by
    rw [hedge, Bool.and_eq_true, Bool.not_eq_true']
  refine ⟨hiff, hrst, htick, t, hstep, ?_⟩
  rw [step_irPrev hstep, hrst, nextInput_of_cons h]
  rfl

/-- Settles O29: the first edge leaves a low line in IR_PREV, and a falling edge needs a high one. -/
theorem noTwoPinEdgesInARow : Obligations.NoTwoPinEdgesInARow := by
  intro s t k1 l1 r2 k2 l2 xs h hstep hedge
  obtain ⟨hfalling, -, -, u, hu, hirPrev⟩ := edgeDetectorFollowsLine s _ _ _ _ h
  obtain rfl : u = t := Host.Outcome.next.inj (hu.symm.trans hstep)
  obtain ⟨-, hlow⟩ := hfalling.1 hedge
  obtain ⟨-, hinputs⟩ := step_stepNo_inputs hstep
  rw [h, List.tail_cons] at hinputs
  obtain ⟨-, hedge', -⟩ := eventWord_of_pins hinputs
  rw [hedge', hirPrev, hlow]
  rfl

/-! The length of a strobe. -/

/-- decode(e) raises no strobe unless the incremented index reaches the frame length (R126). -/
theorem decodeGap_strobes_of_not_atEnd (c : Profile) (e : Nat) {s : State}
    (hpi : s.piVal + 1 < 32) : (decodeGap c e s).cmdValid = s.cmdValid ∧
      (decodeGap c e s).actValid = s.actValid := by
  rcases decodeGap_cases c e s with ⟨-, hd⟩ | ⟨-, -, hd⟩ | ⟨-, hend, -⟩
  · exact hd ▸ ⟨rfl, rfl⟩
  · exact hd ▸ ⟨rfl, rfl⟩
  · omega

/-- Settles O34: a completion leaves PI at 0, 32 data edges away from the next one. -/
theorem strobesLastOneStep : Obligations.StrobesLastOneStep := by
  rintro s t ⟨-, -, -, -, hrest⟩ hvalid hstep
  have hpi : s.piVal = 0 := hrest hvalid
  rcases step_cases hstep with ⟨-, rfl⟩ | ⟨-, -, hquiet⟩ | ⟨-, -, v, -, rfl⟩
  · exact ⟨rfl, rfl⟩
  · obtain ⟨hcmd, hact, -⟩ := quietStep_frame hquiet
    exact ⟨hcmd, hact⟩
  · exact decodeGap_strobes_of_not_atEnd Config.hw s.cnt.toNat (s := clearStrobes s.present)
      (show s.piVal + 1 < 32 by omega)

/-! IDLE in a run. -/

/-- An IDLE before an operation of the event word is lost: each of the five overwrites the strobes and
IR_PREV and reads neither (R100, R120, R131, R175, R176). -/
theorem exec_idleOp {i : Instr} (hi : isEvent i = true) (s : State) :
    exec i (idleOp s) = exec i s := by
  cases i with
  | idle | tick | reset => rfl
  | edge =>
    rw [exec_edge, exec_edge]
    rfl
  | edgt =>
    rw [exec_edgt, exec_edgt]
    rfl
  | _ => exact absurd hi Bool.false_ne_true

/-- The first operation of a run absorbs an IDLE before it. -/
theorem execSeq_idleOp_append_idle {is : List Instr} (hevent : ∀ i ∈ is, isEvent i = true)
    (s : State) : execSeq (is ++ [.idle]) (idleOp s) = execSeq (is ++ [.idle]) s := by
  cases is with
  | nil => rfl
  | cons i is =>
    obtain ⟨hi, -⟩ := List.forall_mem_cons.1 hevent
    rw [List.cons_append, execSeq, execSeq, exec_idleOp hi]

/-- The IDLEs of a run that ends with an IDLE may be taken out: each is absorbed by the operation after
it (R176). -/
theorem execSeq_filter_idle {is : List Instr} (hevent : ∀ i ∈ is, isEvent i = true) (s : State) :
    execSeq (is ++ [.idle]) s = execSeq ((is.filter fun i => i ≠ .idle) ++ [.idle]) s := by
  induction is generalizing s with
  | nil => rfl
  | cons i is ih =>
    obtain ⟨hi, his⟩ := List.forall_mem_cons.1 hevent
    by_cases hidle : i = .idle
    · subst hidle
      have hdrop : ((Instr.idle :: is).filter fun i => i ≠ .idle) = is.filter fun i => i ≠ .idle :=
        List.filter_cons_of_neg (by decide)
      rw [hdrop, ← ih his s, List.cons_append, execSeq_cons _ (exec_idle s)]
      exact execSeq_idleOp_append_idle his s
    · have hkeep : ((i :: is).filter fun i => i ≠ .idle) = i :: is.filter fun i => i ≠ .idle :=
        List.filter_cons_of_pos (decide_eq_true hidle)
      obtain ⟨t, ht⟩ := exec_next i s
      rw [hkeep, List.cons_append, List.cons_append, execSeq_cons _ ht, execSeq_cons _ ht, ih his t]

/-- An IDLE touches no register but the strobes and IR_PREV, so after it the others still tell two
states apart (R176). -/
theorem registers_eq_of_idleOp_eq {t u : State} (h : idleOp t = idleOp u) :
    t.cnt = u.cnt ∧ t.pi = u.pi ∧ t.acc = u.acc ∧ t.cmd = u.cmd ∧ t.act = u.act ∧
      t.events = u.events := by
  obtain ⟨hcnt, hpi, hacc, hcmd, -, -, hact, -, -, -, -, hevents⟩ := State.mk.inj h
  exact ⟨hcnt, hpi, hacc, hcmd, hact, hevents⟩

/-- Settles O41: closed by one more IDLE, both runs end in one state, and that IDLE touches none of
the registers compared. -/
theorem idleStepsDoNotMatter : Obligations.IdleStepsDoNotMatter := by
  intro is s hevent
  obtain ⟨t, ht⟩ := execSeq_next is s
  obtain ⟨u, hu⟩ := execSeq_next (is.filter fun i => i ≠ .idle) s
  have hclosed := execSeq_filter_idle hevent s
  rw [execSeq_append, execSeq_append, ht, hu] at hclosed
  exact ⟨t, u, ht, hu, registers_eq_of_idleOp_eq (Host.Outcome.next.inj hclosed)⟩

end Sys2Proof.Machine
end

/-! SUPPORT. RESET as a step (spec 60_exceptions.md R194; 70_reset_and_hazards.md R220): with `rst` set,
RESET is the operation of the step whatever the `edge` and `tick` bits are. -/

section
namespace Sys2Proof.Machine

theorem exec_reset (e t : Bool) (s : State) : exec (.reset e t) s = .next (resetOp s) := rfl

/-- A step with `rst` = 1 performs RESET, whatever the other two bits of its event word are (R194). -/
theorem step_of_rst {s : State} (hrst : s.eventWord.getLsbD 2 = true) :
    step s = .next (resetOp s.present).nextStep := by
  apply step_of_exec
  rw [decodeEv_reset _ hrst]
  exact exec_reset _ _ _

/-- Settles O27: the step performs RESET, which leaves the reset state but for the model's own fields. -/
theorem resetDominatesEdgeAndTick : Obligations.ResetDominatesEdgeAndTick := by
  intro s hrst
  refine ⟨_, step_of_rst hrst, ?_⟩
  rw [resetOp_eq]
  rfl

end Sys2Proof.Machine
end

/-! SUPPORT. Saturated samples (spec 70_reset_and_hazards.md R237): every threshold is at most CEIL, so
a saturated gap passes the comparator's tests as the gap itself does, and decodes as the gap itself. -/

section
namespace Sys2Proof.Machine

/-- decode(e) reads its sample and its profile only through the two tests of the comparator (R132). -/
theorem decodeGap_congr {c d : Profile} {e f : Nat} (hstart : c.tStart ≤ e ↔ d.tStart ≤ f)
    (hone : c.tBit ≤ e ↔ d.tBit ≤ f) (s : State) : decodeGap c e s = decodeGap d f s := by
  have hs : isStart c e = isStart d f := decide_eq_decide.2 hstart
  have ho : isOne c e = isOne d f := decide_eq_decide.2 hone
  rw [decodeGap, decodeGap, hs, ho]

/-- A threshold up to the ceiling is reached by the saturated gap exactly when the gap reaches it. -/
theorem le_saturatedGap_iff {ceil t : Nat} (hceil : ceil ≤ 63) (ht : t ≤ ceil) (n : Nat) :
    t ≤ (BitVec.ofNat 6 (min n ceil)).toNat ↔ t ≤ n := by
  have hmin : (BitVec.ofNat 6 (min n ceil)).toNat = min n ceil :=
    Nat.mod_eq_of_lt (by omega)
  rw [hmin, le_min_iff, and_iff_left ht]

/-- Under a legal profile an EDGE with the saturated gap in CNT decodes the gap itself, however long
it is (R107, R237). -/
theorem edgeOp_saturatedGap {c : Profile} (hc : c.wf = true) (n : Nat) (s : State) :
    edgeOp c (s.setCnt (BitVec.ofNat 6 (min n c.ceil))) =
      latchLine ((decodeGap c n (clearStrobes s)).setCnt 0) := by
  obtain ⟨-, hbitStart, hstartCeil, hceil⟩ := Profile.wf_iff.1 hc
  rw [edgeOp_setCnt, decodeGap_congr (le_saturatedGap_iff hceil hstartCeil n)
    (le_saturatedGap_iff hceil (by omega) n)]

/-- Settles O45: both profiles decode the gap itself, and their thresholds are equal. -/
theorem ceilingAboveThresholdDecodesAlike : Obligations.CeilingAboveThresholdDecodesAlike := by
  intro c d n s hc hd htBit htStart
  have hgap : decodeGap c n (clearStrobes s) = decodeGap d n (clearStrobes s) :=
    decodeGap_congr (by rw [htStart]) (by rw [htBit]) _
  exact (edgeOp_saturatedGap hc n s).trans (hgap ▸ (edgeOp_saturatedGap hd n s).symm)

end Sys2Proof.Machine
end
